-- ==== Sys2Proof/Word.lean ====
section
/-! DEFINITION. The two plainest types of the engine: the 32-bit word that a host access moves, and the number of a
bignum register. -/

namespace Sys2Proof

/-- A 32-bit word: a command, a limb, or the contents of a control register (00_scope.md R7, `W = 32`). -/
abbrev Word := BitVec 32

/-- The number of a bignum register, 0 to 15, as a register field names it (10_state.md R22: all 16 values are
ordinary registers). -/
abbrev RegId := Fin 16

end Sys2Proof
end

