-- ==== Sys2Proof/Syntax.lean ====
section
/-! DEFINITION. The 17 commands of the engine (00_scope.md R2; 30_encoding.md R64), one constructor for each row of
the opcode map, with exactly the operands the row uses, in the assembler's order (30_encoding.md R69). -/

namespace Sys2Proof

/-- A command. A register operand is a register number; an immediate is an unsigned integer (30_encoding.md R63),
whose range is checked by `Instr.wellFormed`. -/
inductive Instr where
  | clr (rd : RegId)
  | mov (rd ra : RegId)
  | ldi (rd : RegId) (imm : Nat)
  | add (rd ra rb : RegId)
  | sub (rd ra rb : RegId)
  | mul (rd ra rb : RegId)
  | shli (rd ra : RegId) (imm : Nat)
  | shri (rd ra : RegId) (imm : Nat)
  | maski (rd ra : RegId) (imm : Nat)
  | shladd (rd ra rb : RegId) (imm : Nat)
  | bitlen (rd ra : RegId)
  | cmp (ra rb : RegId)
  | montmul (rd ra rb rm : RegId)
  | montrr (rd rm : RegId)
  | modexp (rd ra rb rm : RegId)
  | modinv (rd ra rm : RegId)
  | zeroize
deriving DecidableEq, Repr

end Sys2Proof
end

