-- ==== Sys2Proof/WellFormed.lean ====
section
/-! DEFINITION. Which commands have an encoding: register operands are in range by their type, an immediate must fit
the 14-bit field (30_encoding.md R61, R63). -/

namespace Sys2Proof

/-- The immediate fits its field: 0 to 16383 (30_encoding.md R63). -/
def immFits (imm : Nat) : Bool := imm < 16384

/-- A command that a word can carry. -/
def Instr.wellFormed : Instr → Bool
  | .ldi _ imm => immFits imm
  | .shli _ _ imm => immFits imm
  | .shri _ _ imm => immFits imm
  | .maski _ _ imm => immFits imm
  | .shladd _ _ _ imm => immFits imm
  | .clr _ => true
  | .mov _ _ => true
  | .add _ _ _ => true
  | .sub _ _ _ => true
  | .mul _ _ _ => true
  | .bitlen _ _ => true
  | .cmp _ _ => true
  | .montmul _ _ _ _ => true
  | .montrr _ _ => true
  | .modexp _ _ _ _ => true
  | .modinv _ _ _ => true
  | .zeroize => true

end Sys2Proof
end

