-- ==== Sys2Proof/Decode.lean ====
section
/-! DEFINITION. From a command word to a command and back (30_encoding.md). The decoder is total on all `2^32` words
and names why a word is illegal (R65, R66); the encoder writes the one word of a command (R69). The opcode map of R64
stands beside them as a table of masks and matches. -/

namespace Sys2Proof

/-- `v[hi:lo]`: the integer `floor(v / 2^lo) mod 2^(hi-lo+1)` (00_scope.md R10). -/
def bits (v hi lo : Nat) : Nat := (v >>> lo) % 2 ^ (hi + 1 - lo)

/-- The 4-bit register field whose lowest bit is `lo` (30_encoding.md R61). -/
def regField (v lo : Nat) : RegId := Fin.ofNat 16 (bits v (lo + 3) lo)

/-- The two ways a word is illegal: 30_encoding.md R66 (a) and (b). -/
inductive IllegalWord where
  /-- R66 (a): the opcode is not in the opcode map. -/
  | unusedOpcode
  /-- R66 (b): the opcode is in the map and a bit that must be zero is one. -/
  | mustBeZero
deriving DecidableEq, Repr

/-- The command `i`, provided that the must-be-zero bits `z` are all zero (30_encoding.md R62, R66 (b)). -/
def whenZero (z : Nat) (i : Instr) : Except IllegalWord Instr :=
  if z = 0 then .ok i else .error .mustBeZero

/-- The command a word means, or why it is illegal (30_encoding.md R61, R64 to R66). The bits each row passes to
`whenZero` are those under its mask of R64 below the opcode. -/
def decode (w : Word) : Except IllegalWord Instr :=
  let v := w.toNat
  let rd := regField v 22
  let ra := regField v 18
  let rb := regField v 14
  let rm := regField v 10
  let imm := bits v 13 0
  match bits v 31 26 with
  | 0x01 => whenZero (bits v 21 0) (.clr rd)
  | 0x02 => whenZero (bits v 17 0) (.mov rd ra)
  | 0x03 => whenZero (bits v 21 14) (.ldi rd imm)
  | 0x04 => whenZero (bits v 13 0) (.add rd ra rb)
  | 0x05 => whenZero (bits v 13 0) (.sub rd ra rb)
  | 0x06 => whenZero (bits v 13 0) (.mul rd ra rb)
  | 0x07 => whenZero (bits v 17 14) (.shli rd ra imm)
  | 0x08 => whenZero (bits v 17 14) (.shri rd ra imm)
  | 0x09 => whenZero (bits v 17 14) (.maski rd ra imm)
  | 0x0A => .ok (.shladd rd ra rb imm)
  | 0x0B => whenZero (bits v 17 0) (.bitlen rd ra)
  | 0x0C => whenZero (bits v 25 22 + bits v 13 0) (.cmp ra rb)
  | 0x10 => whenZero (bits v 9 0) (.montmul rd ra rb rm)
  | 0x11 => whenZero (bits v 21 14 + bits v 9 0) (.montrr rd rm)
  | 0x18 => whenZero (bits v 9 0) (.modexp rd ra rb rm)
  | 0x19 => whenZero (bits v 17 14 + bits v 9 0) (.modinv rd ra rm)
  | 0x3F => whenZero (bits v 25 0) .zeroize
  | _ => .error .unusedOpcode

/-- `op * 2^26 + rd * 2^22 + ra * 2^18 + rb * 2^14 + low`, the encoding of 30_encoding.md R69; `low` is `rm * 2^10` or
the immediate. -/
def packWord (op rd ra rb low : Nat) : Word :=
  BitVec.ofNat 32 (op * 2 ^ 26 + rd * 2 ^ 22 + ra * 2 ^ 18 + rb * 2 ^ 14 + low)

/-- The word of a well-formed command (30_encoding.md R64, R69): every field the command does not use is 0. -/
def encode : Instr → Word
  | .clr rd => packWord 0x01 rd 0 0 0
  | .mov rd ra => packWord 0x02 rd ra 0 0
  | .ldi rd imm => packWord 0x03 rd 0 0 imm
  | .add rd ra rb => packWord 0x04 rd ra rb 0
  | .sub rd ra rb => packWord 0x05 rd ra rb 0
  | .mul rd ra rb => packWord 0x06 rd ra rb 0
  | .shli rd ra imm => packWord 0x07 rd ra 0 imm
  | .shri rd ra imm => packWord 0x08 rd ra 0 imm
  | .maski rd ra imm => packWord 0x09 rd ra 0 imm
  | .shladd rd ra rb imm => packWord 0x0A rd ra rb imm
  | .bitlen rd ra => packWord 0x0B rd ra 0 0
  | .cmp ra rb => packWord 0x0C 0 ra rb 0
  | .montmul rd ra rb rm => packWord 0x10 rd ra rb (rm * 2 ^ 10)
  | .montrr rd rm => packWord 0x11 rd 0 0 (rm * 2 ^ 10)
  | .modexp rd ra rb rm => packWord 0x18 rd ra rb (rm * 2 ^ 10)
  | .modinv rd ra rm => packWord 0x19 rd ra 0 (rm * 2 ^ 10)
  | .zeroize => packWord 0x3F 0 0 0 0

/-- The mnemonic of a command, as 30_encoding.md R64 spells it. -/
def Instr.mnemonic : Instr → String
  | .clr _ => "CLR"
  | .mov _ _ => "MOV"
  | .ldi _ _ => "LDI"
  | .add _ _ _ => "ADD"
  | .sub _ _ _ => "SUB"
  | .mul _ _ _ => "MUL"
  | .shli _ _ _ => "SHLI"
  | .shri _ _ _ => "SHRI"
  | .maski _ _ _ => "MASKI"
  | .shladd _ _ _ _ => "SHLADD"
  | .bitlen _ _ => "BITLEN"
  | .cmp _ _ => "CMP"
  | .montmul _ _ _ _ => "MONTMUL"
  | .montrr _ _ => "MONTRR"
  | .modexp _ _ _ _ => "MODEXP"
  | .modinv _ _ _ => "MODINV"
  | .zeroize => "ZEROIZE"

/-- The opcode of a command (30_encoding.md R64, column `op`). -/
def Instr.opcode : Instr → Nat
  | .clr _ => 0x01
  | .mov _ _ => 0x02
  | .ldi _ _ => 0x03
  | .add _ _ _ => 0x04
  | .sub _ _ _ => 0x05
  | .mul _ _ _ => 0x06
  | .shli _ _ _ => 0x07
  | .shri _ _ _ => 0x08
  | .maski _ _ _ => 0x09
  | .shladd _ _ _ _ => 0x0A
  | .bitlen _ _ => 0x0B
  | .cmp _ _ => 0x0C
  | .montmul _ _ _ _ => 0x10
  | .montrr _ _ => 0x11
  | .modexp _ _ _ _ => 0x18
  | .modinv _ _ _ => 0x19
  | .zeroize => 0x3F

/-- The register a command writes, where it writes one (40_bignum_primitives.md R80; CMP writes flags and ZEROIZE all
registers). -/
def Instr.dest? : Instr → Option RegId
  | .clr rd => some rd
  | .mov rd _ => some rd
  | .ldi rd _ => some rd
  | .add rd _ _ => some rd
  | .sub rd _ _ => some rd
  | .mul rd _ _ => some rd
  | .shli rd _ _ => some rd
  | .shri rd _ _ => some rd
  | .maski rd _ _ => some rd
  | .shladd rd _ _ _ => some rd
  | .bitlen rd _ => some rd
  | .cmp _ _ => none
  | .montmul rd _ _ _ => some rd
  | .montrr rd _ => some rd
  | .modexp rd _ _ _ => some rd
  | .modinv rd _ _ => some rd
  | .zeroize => none

/-- The registers a command reads (30_encoding.md R64, column "used fields"; 40_bignum_primitives.md R80 step 1). -/
def Instr.sources : Instr → List RegId
  | .clr _ => []
  | .mov _ ra => [ra]
  | .ldi _ _ => []
  | .add _ ra rb => [ra, rb]
  | .sub _ ra rb => [ra, rb]
  | .mul _ ra rb => [ra, rb]
  | .shli _ ra _ => [ra]
  | .shri _ ra _ => [ra]
  | .maski _ ra _ => [ra]
  | .shladd _ ra rb _ => [ra, rb]
  | .bitlen _ ra => [ra]
  | .cmp ra rb => [ra, rb]
  | .montmul _ ra rb rm => [ra, rb, rm]
  | .montrr _ rm => [rm]
  | .modexp _ ra rb rm => [ra, rb, rm]
  | .modinv _ ra rm => [ra, rm]
  | .zeroize => []

/-- One row of the opcode map of 30_encoding.md R64. -/
structure OpcodeRow where
  mnemonic : String
  match_ : Word
  mask : Word
deriving DecidableEq, Repr

/-- A word selects a row exactly when its bits under the mask are the match (30_encoding.md R64). -/
def OpcodeRow.selectedBy (r : OpcodeRow) (w : Word) : Bool := w &&& r.mask == r.match_

/-- The opcode map, row by row (30_encoding.md R64). -/
def opcodeMap : List OpcodeRow :=
  [⟨"CLR", 0x04000000, 0xFC3FFFFF⟩, ⟨"MOV", 0x08000000, 0xFC03FFFF⟩, ⟨"LDI", 0x0C000000, 0xFC3FC000⟩,
   ⟨"ADD", 0x10000000, 0xFC003FFF⟩, ⟨"SUB", 0x14000000, 0xFC003FFF⟩, ⟨"MUL", 0x18000000, 0xFC003FFF⟩,
   ⟨"SHLI", 0x1C000000, 0xFC03C000⟩, ⟨"SHRI", 0x20000000, 0xFC03C000⟩, ⟨"MASKI", 0x24000000, 0xFC03C000⟩,
   ⟨"SHLADD", 0x28000000, 0xFC000000⟩, ⟨"BITLEN", 0x2C000000, 0xFC03FFFF⟩, ⟨"CMP", 0x30000000, 0xFFC03FFF⟩,
   ⟨"MONTMUL", 0x40000000, 0xFC0003FF⟩, ⟨"MONTRR", 0x44000000, 0xFC3FC3FF⟩, ⟨"MODEXP", 0x60000000, 0xFC0003FF⟩,
   ⟨"MODINV", 0x64000000, 0xFC03C3FF⟩, ⟨"ZEROIZE", 0xFC000000, 0xFFFFFFFF⟩]

/-- The pseudo-instruction `NOP` (30_encoding.md R70). -/
def Instr.nop : Instr := .mov 0 0

/-- The pseudo-instruction `MONTSQR rd, ra, rm` (30_encoding.md R70). -/
def Instr.montsqr (rd ra rm : RegId) : Instr := .montmul rd ra ra rm

/-- The pseudo-instruction `INS rd, ra, rb, #n` (30_encoding.md R70). -/
def Instr.ins (rd ra rb : RegId) (n : Nat) : Instr := .shladd rd ra rb n

/-- The pseudo-instruction `SHL1 rd, ra` (30_encoding.md R70). -/
def Instr.shl1 (rd ra : RegId) : Instr := .shli rd ra 1

/-- The command word whose bits below `nbits` are those of `w` and whose other bits are 0. -/
def tableWord (nbits w : Nat) : Word := BitVec.ofNat 32 (w % 2 ^ nbits)

/-- The command the decoder reads from the bits of an opcode-table row. -/
def decodeTableWord (nbits w : Nat) : Option Instr := (decode (tableWord nbits w)).toOption

end Sys2Proof
end

