-- ==== Sys2Proof/Config.lean ====
section
/-! DEFINITION. What one implementation of the engine fixes: the register width `K` (open, 00_scope.md R7) and the
constants that 00_scope.md R7 fixes for all of them. The spec leaves no value free (93_implementation_defined.md:
nothing is "any value"), so there is no opaque constant here. -/

namespace Sys2Proof

/-- The parameter of an implementation. `K` is the width in bits of every bignum register (00_scope.md R7). -/
structure Config where
  K : Nat
deriving DecidableEq, Repr

/-- `L`, the limbs of a register (00_scope.md R7: `K / 32`). -/
def Config.L (c : Config) : Nat := c.K / 32

/-- The widths 00_scope.md R7 admits: a multiple of 32 with 64 <= K <= 16384. -/
def Config.legal (c : Config) : Bool := c.K % 32 == 0 && 64 ≤ c.K && c.K ≤ 16384

/-- The default width of 00_scope.md R7. -/
def Config.standard : Config := ⟨4096⟩

/-- The interface revision that PARAM reports (00_scope.md R7, `REV`). -/
def Config.revision : Nat := 1

/-- The limb width that PARAM reports (00_scope.md R7, `W`). -/
def Config.limbWidth : Nat := 32

end Sys2Proof
end

