-- ==== Sys2Proof/Machine/State.lean ====
section
/-! DEFINITION. The state of the engine and of the host that drives it, as plain data, and the state after reset.
The engine's part is the table of 10_state.md R21, whole; the host's part is what the host and the platform will do
next and the response to the access served last (10_state.md R20, R34). -/

namespace Sys2Proof.Machine

/-- The causes of 60_exceptions.md R171, by name. Code 7 has no name here: it is "never recorded". -/
inductive Cause where
  | none
  | illegalCommand
  | badModulus
  | operandRange
  | noInverse
  | overflow
  | underflow
deriving DecidableEq, Repr

/-- One access of the host (10_state.md R20; 20_memory.md R41, R42). `width` is in bytes, as in `MemRead(addr, 4)`; only
4 is accepted (20_memory.md R43), so the value of a write is one 32-bit word. -/
inductive HostAccess where
  | read (addr width : Nat)
  | write (addr width : Nat) (v : Word)
deriving DecidableEq, Repr

/-- What the host sees of an access (10_state.md R20): `data` is a read's `ok(data)`, `done` a write's `ok`. -/
inductive Response where
  | data (w : Word)
  | done
  | busError
deriving DecidableEq, Repr

/-- What reaches the engine from outside: an access of the host, or the platform's reset event, which falls between
two accesses (70_reset_and_hazards.md R190). -/
inductive Input where
  | access (a : HostAccess)
  | reset
deriving DecidableEq, Repr

/-- The state. `cfg` is the configuration (log 1): no step writes it. `x` to `errcmd` are the engine's architectural
state (10_state.md R21). `pending` and `response` are the host's side (log 2, log 5). -/
structure State where
  cfg : Config
  x : Vector Nat 16
  err : Bool
  eq : Bool
  lt : Bool
  cause : Cause
  errcmd : Word
  pending : List Input
  response : Option Response
deriving DecidableEq, Repr

/-- Why the machine would stop with a fault. It never does: a fault of the engine is a defined next state
(60_exceptions.md R175), so there is no reason to name. -/
inductive Fault where
deriving DecidableEq, Repr

/-- Why a step has no next state. -/
inductive Refusal where
  /-- Raised by an arm of `exec` whose command has no meaning yet (none is left). Safe: nothing is claimed. -/
  | notModelled (mnemonic : String)
  /-- Raised by the step when the window answers an access with `bus_error`: the model gives no meaning to a host
  program that performs it (20_memory.md R43; 60_exceptions.md R188). Safe: nothing is claimed of that program. -/
  | busError
  /-- Raised by the run of a host's sequence at a modulus size that is odd, at most 48 or above `K`, to which the spec
  gives no meaning (45_padded_rsa_sequences.md R151; 93_implementation_defined.md U7, U8). No step of the machine raises
  it. Safe: nothing is claimed of that host. -/
  | modulusSize
deriving DecidableEq, Repr

/-- The state after reset (10_state.md R33; 70_reset_and_hazards.md R191): every architectural bit 0, at the default
width (log 1), with no host access to come and none served (log 2, log 5). -/
def State.reset : State where
  cfg := Config.standard
  x := Vector.replicate 16 0
  err := false
  eq := false
  lt := false
  cause := .none
  errcmd := 0
  pending := []
  response := Option.none

end Sys2Proof.Machine
end

