-- ==== Sys2Proof/Machine/Ops.lean ====
section
/-! DEFINITION. The named operations over the state: reading and writing a register, one limb of it, taking a fault and
acknowledging it, the discard of commands while a fault is on record, and the reset event. -/

namespace Sys2Proof.Machine

/-- What a step or a command of this machine answers. -/
abbrev Result := Host.Outcome State Fault Refusal

/-- Apply `f` to the next state of an outcome, if there is one. -/
def mapNext (f : State → State) : Result → Result
  | .next s => .next (f s)
  | .fault r => .fault r
  | .refused r => .refused r

/-- `2^K`, the first integer a register cannot hold (00_scope.md R7), written `1 << K`. -/
def State.bound (s : State) : Nat := 1 <<< s.cfg.K

/-- `x[r]` (00_scope.md R11). -/
def State.reg (s : State) (r : RegId) : Nat := s.x[r.val]

/-- `x[r] <- v` (00_scope.md R11), with `v < 2^K` left to the caller. -/
def State.setReg (s : State) (r : RegId) (v : Nat) : State :=
  { s with x := s.x.set r.val v r.isLt }

/-- `raise <Fault>(w)`: the fault's code and the whole command word are recorded and nothing else changes
(60_exceptions.md R175). -/
def State.raiseFault (s : State) (c : Cause) (w : Word) : State :=
  { s with err := true, cause := c, errcmd := w }

/-- The host's acknowledgement of a fault (60_exceptions.md R182; 10_state.md R26): nothing but the record is
cleared. -/
def State.acknowledge (s : State) : State :=
  { s with err := false, cause := .none, errcmd := 0 }

/-- A command takes effect only while no fault is on record; otherwise it is discarded (60_exceptions.md R176;
40_bignum_primitives.md R80). `t` is the state the command's rule gives. -/
def runCommand (s t : State) : Result := if s.err then .next s else .next t

/-- Steps 4 and 5 of 40_bignum_primitives.md R80: the exact result `v` of the command with word `w` is written to
`x[rd]` when it fits, and raises Overflow when it does not (60_exceptions.md R172). -/
def State.writeResult (s : State) (rd : RegId) (w : Word) (v : Nat) : State :=
  if v < s.bound then s.setReg rd v else s.raiseFault .overflow w

/-- All registers and both compare flags cleared (44_system.md R141). -/
def State.zeroAll (s : State) : State :=
  { s with x := Vector.replicate 16 0, eq := false, lt := false }

/-- Both compare flags written (40_bignum_primitives.md R92). -/
def State.setCompare (s : State) (e l : Bool) : State := { s with eq := e, lt := l }

/-- Limb `j` of the value `v`: `v[32j+31:32j]` (00_scope.md R18). -/
def limb (v j : Nat) : Nat := bits v (32 * j + 31) (32 * j)

/-- `v` with limb `j` replaced by `w` and no other bit changed (20_memory.md R46). -/
def replaceLimb (v j w : Nat) : Nat := v - limb v j <<< (32 * j) + w <<< (32 * j)

/-- The reset event (70_reset_and_hazards.md R190, R191): the engine's state is that of `State.reset`. The width is
configuration, and the host's side is not the engine's: both stay. -/
def State.resetEngine (s : State) : State :=
  { State.reset with cfg := s.cfg, pending := s.pending, response := s.response }

/-- The host's next input is taken from its list; `rest` is what remains. -/
def State.take (s : State) (rest : List Input) : State := { s with pending := rest }

/-- The response to an access reaches the host (20_memory.md R41, R42). -/
def State.respond (s : State) (r : Response) : State := { s with response := some r }

end Sys2Proof.Machine
end

