-- ==== Sys2Proof/Machine/Operands.lean ====
section
/-! DEFINITION. Functions of one value that the rules name: its bit length, its low bits, its shifts and its big-endian
bytes. An operand of a command is a register's value (`State.reg`) or the immediate as it stands (30_encoding.md
R63); there is no other operand form. -/

namespace Sys2Proof.Machine

/-- `bit_length(v)`: the least `n` with `v < 2^n` (00_scope.md R12); 0 for 0. -/
def bitLength (v : Nat) : Nat := if v = 0 then 0 else Nat.log2 v + 1

/-- `mask_low_bits(v, n)`: `v mod 2^n` (00_scope.md R13). -/
def maskLowBits (v n : Nat) : Nat := v % (1 <<< n)

/-- `v << n`: `v * 2^n`, exact (00_scope.md R11). -/
def shiftLeft (v n : Nat) : Nat := v <<< n

/-- `v >> n`: `floor(v / 2^n)` (00_scope.md R11). -/
def shiftRight (v n : Nat) : Nat := v >>> n

/-- `to_bytes_be(v, n)`: the `n` bytes of `v`, most significant first (00_scope.md R14, for `v < 2^(8n)`). DESIGN CHOICE
(log 18): of a larger `v` it gives the `n` low bytes. -/
def toBytesBE (v n : Nat) : List (BitVec 8) :=
  (List.range n).map fun i => BitVec.ofNat 8 (bits v (8 * (n - 1 - i) + 7) (8 * (n - 1 - i)))

/-- `from_bytes_be(b)`: the integer whose big-endian bytes are `b` (00_scope.md R14). -/
def fromBytesBE (b : List (BitVec 8)) : Nat := b.foldl (fun acc x => acc * 256 + x.toNat) 0

end Sys2Proof.Machine
end

