-- ==== Sys2Proof/Machine/Modular.lean ====
section
/-! DEFINITION. The modular functions of the spec (41_montgomery.md, 42_modexp.md, 43_modinv.md). `modInv`, `monPro` and
`modExp` are the functions the commands compute; the reference datapaths that the spec describes beside them
(`divRem`, `monProWordSerial`, `modExpEngine`) are written out too, and statements say that they agree. -/

namespace Sys2Proof.Machine

/-- The loop of `ModInvEngine` (43_modinv.md R132): remainders `r0`, `r1` and the signed Bezout coefficients `t0`, `t1`
of `a`. `fuel` only bounds the recursion: `r1` decreases at every turn (R134), so any `fuel > r1` is enough. -/
def euclidLoop : Nat → Nat → Nat → Int → Int → Nat × Int
  | 0, r0, _, t0, _ => (r0, t0)
  | fuel + 1, r0, r1, t0, t1 =>
    if r1 = 0 then (r0, t0)
    else euclidLoop fuel r1 (r0 % r1) t1 (t0 - (r0 / r1 : Nat) * t1)

/-- `ModInvEngine(a, m)`, `m >= 1` (43_modinv.md R132): none stands for NoInverse. `DivRem` gives the quotient and the
remainder (42_modexp.md R123). -/
def modInvEngine (a m : Nat) : Option Nat :=
  let g := euclidLoop m m (a % m) 0 1
  if g.1 ≠ 1 then none
  else if g.2 < 0 then some (g.2 + m).toNat
  else some g.2.toNat

/-- `ModInv(a, m)` (43_modinv.md R130) where `gcd(a, m) = 1`. -/
def modInv (a m : Nat) : Nat := (modInvEngine a m).getD 0

/-- `limbs(N) = ceil(bit_length(N) / 32)` (41_montgomery.md R110). -/
def limbCount (N : Nat) : Nat := (bitLength N + 31) / 32

/-- The Montgomery radix `R = 2^(32n)` of a modulus (41_montgomery.md R110). -/
def radix (N : Nat) : Nat := 1 <<< (32 * limbCount N)

/-- `MonPro(a, b, N) = a * b * R^-1 mod N`, `N` odd (41_montgomery.md R111). -/
def monPro (a b N : Nat) : Nat := a * b * modInv (radix N) N % N

/-- `R^2 mod N`, which is `2^(64n) mod N` (41_montgomery.md R113). -/
def montgomeryRR (N : Nat) : Nat := (1 <<< (64 * limbCount N)) % N

/-- The loop of `modExp`: exponent bits `n-1` down to 0, a square each, a product for each 1. -/
def modExpLoop (b e N : Nat) : Nat → Nat → Nat
  | 0, acc => acc
  | n + 1, acc =>
    let sq := acc * acc % N
    modExpLoop b e N n (if bits e n n = 1 then sq * b % N else sq)

/-- `ModExp(b, e, N) = b^e mod N`, `N >= 1` (42_modexp.md R120), by left-to-right square-and-multiply so that it can be
evaluated at every exponent a register holds. -/
def modExp (b e N : Nat) : Nat := modExpLoop (b % N) e N (bitLength e) (1 % N)

/-- The loop of `DivRem` (42_modexp.md R123): bits `i-1` down to 0 of `u` are brought into the remainder. -/
def divRemLoop (u N : Nat) : Nat → Nat → Nat → Nat × Nat
  | 0, q, r => (q, r)
  | i + 1, q, r =>
    let r' := 2 * r + bits u i i
    if N ≤ r' then divRemLoop u N i (2 * q + 1) (r' - N)
    else divRemLoop u N i (2 * q) r'

/-- `DivRem(u, N)`, restoring shift-and-subtract division, `N >= 1` (42_modexp.md R123). -/
def divRem (u N : Nat) : Nat × Nat := divRemLoop u N (bitLength u) 0 0

/-- `n0' = (-(N^-1)) mod 2^32` (41_montgomery.md R114). -/
def montgomeryN0 (N : Nat) : Nat := (2 ^ 32 - modInv N (2 ^ 32)) % 2 ^ 32

/-- The loop of `MonProWordSerial` (41_montgomery.md R114): `k` digits of `a` still to come, the next one digit `i`. -/
def wordSerialLoop (a b N : Nat) : Nat → Nat → Nat → Nat
  | 0, _, t => t
  | k + 1, i, t =>
    let u := t + limb a i * b
    let q := bits u 31 0 * montgomeryN0 N % 2 ^ 32
    wordSerialLoop a b N k (i + 1) ((u + q * N) / 2 ^ 32)

/-- `MonProWordSerial(a, b, N)`, the reference datapath of MONTMUL (41_montgomery.md R114). -/
def monProWordSerial (a b N : Nat) : Nat :=
  let t := wordSerialLoop a b N (limbCount N) 0 0
  if N ≤ t then t - N else t

/-- The odd-modulus loop of `ModExpEngine` (42_modexp.md R122), on values in Montgomery form. -/
def modExpMontLoop (bm e N : Nat) : Nat → Nat → Nat
  | 0, acc => acc
  | n + 1, acc =>
    let sq := monProWordSerial acc acc N
    modExpMontLoop bm e N n (if bits e n n = 1 then monProWordSerial sq bm N else sq)

/-- The even-modulus loop of `ModExpEngine` (42_modexp.md R122), on restoring division. -/
def modExpDivLoop (b0 e N : Nat) : Nat → Nat → Nat
  | 0, acc => acc
  | n + 1, acc =>
    let sq := (divRem (acc * acc) N).2
    modExpDivLoop b0 e N n (if bits e n n = 1 then (divRem (sq * b0) N).2 else sq)

/-- `ModExpEngine(b, e, N)`, the reference engine of MODEXP, `N >= 1` (42_modexp.md R122). -/
def modExpEngine (b e N : Nat) : Nat :=
  if N = 1 then 0
  else
    let b0 := (divRem b N).2
    if N % 2 = 1 then
      let rr := montgomeryRR N
      let acc := modExpMontLoop (monProWordSerial b0 rr N) e N (bitLength e) (monProWordSerial 1 rr N)
      monProWordSerial acc 1 N
    else modExpDivLoop b0 e N (bitLength e) 1

end Sys2Proof.Machine
end

