-- ==== Sys2Proof/Machine/ModularEngines.lean ====
section
/-! DEFINITION. The meanings of MODEXP (42_modexp.md R121) and MODINV (43_modinv.md R131), with the fault priority of
60_exceptions.md R180. -/

namespace Sys2Proof.Machine

/-- `MODEXP rd, ra, rb, rm` (42_modexp.md R121). -/
def execModexp (rd ra rb rm : RegId) (s : State) : Result :=
  runCommand s <|
    if s.reg rm = 0 then s.raiseFault .badModulus (encode (.modexp rd ra rb rm))
    else s.setReg rd (modExp (s.reg ra) (s.reg rb) (s.reg rm))

/-- `MODINV rd, ra, rm` (43_modinv.md R131). -/
def execModinv (rd ra rm : RegId) (s : State) : Result :=
  runCommand s <|
    if s.reg rm = 0 then s.raiseFault .badModulus (encode (.modinv rd ra rm))
    else if Nat.gcd (s.reg ra) (s.reg rm) ≠ 1 then
      s.raiseFault .noInverse (encode (.modinv rd ra rm))
    else s.setReg rd (modInv (s.reg ra) (s.reg rm))

end Sys2Proof.Machine
end

