-- ==== Sys2Proof/Machine/Montgomery.lean ====
section
/-! DEFINITION. The meanings of the Montgomery commands (41_montgomery.md R112, R113), with the fault priority of
60_exceptions.md R180. -/

namespace Sys2Proof.Machine

/-- The modulus check of MONTMUL and MONTRR: zero or even is a bad modulus (60_exceptions.md R177). -/
def badMontgomeryModulus (N : Nat) : Bool := N == 0 || N % 2 == 0

/-- `MONTMUL rd, ra, rb, rm` (41_montgomery.md R112). -/
def execMontmul (rd ra rb rm : RegId) (s : State) : Result :=
  runCommand s <|
    if badMontgomeryModulus (s.reg rm) then
      s.raiseFault .badModulus (encode (.montmul rd ra rb rm))
    else if s.reg rm ≤ s.reg ra ∨ s.reg rm ≤ s.reg rb then
      s.raiseFault .operandRange (encode (.montmul rd ra rb rm))
    else s.setReg rd (monPro (s.reg ra) (s.reg rb) (s.reg rm))

/-- `MONTRR rd, rm` (41_montgomery.md R113). -/
def execMontrr (rd rm : RegId) (s : State) : Result :=
  runCommand s <|
    if badMontgomeryModulus (s.reg rm) then s.raiseFault .badModulus (encode (.montrr rd rm))
    else s.setReg rd (montgomeryRR (s.reg rm))

end Sys2Proof.Machine
end

