-- ==== Sys2Proof/Machine/Flags.lean ====
section
/-! DEFINITION. The compare flags, the cause codes, and the control registers as the words a host reads. -/

namespace Sys2Proof.Machine

/-- The value CMP gives `EQ` (40_bignum_primitives.md R92). -/
def equalFlag (a b : Nat) : Bool := a == b

/-- The value CMP gives `LT`, unsigned (40_bignum_primitives.md R92). -/
def lessFlag (a b : Nat) : Bool := a < b

/-- The code of a cause, as `CAUSE[2:0]` holds it (60_exceptions.md R171). -/
def Cause.code : Cause → Nat
  | .none => 0
  | .illegalCommand => 1
  | .badModulus => 2
  | .operandRange => 3
  | .noInverse => 4
  | .overflow => 5
  | .underflow => 6

/-- What a read of STATUS returns: `ERR + 2*EQ + 4*LT` (10_state.md R26). -/
def State.statusWord (s : State) : Word :=
  BitVec.ofNat 32 (s.err.toNat + 2 * s.eq.toNat + 4 * s.lt.toNat)

/-- What a read of CAUSE returns: the code in bits 2:0, the rest 0 (10_state.md R27). -/
def State.causeWord (s : State) : Word := BitVec.ofNat 32 s.cause.code

/-- What a read of PARAM returns: `K` in bits 15:0, 32 in bits 23:16, 1 in bits 31:24 (10_state.md R29). -/
def State.paramWord (s : State) : Word :=
  BitVec.ofNat 32 (s.cfg.K + Config.limbWidth * 2 ^ 16 + Config.revision * 2 ^ 24)

end Sys2Proof.Machine
end

