-- ==== Sys2Proof/Machine/Primitives.lean ====
section
/-! DEFINITION. The meanings of the bignum primitives (40_bignum_primitives.md R80 to R94). Each names the command's own
word, which a fault records (60_exceptions.md R175; log 6). -/

namespace Sys2Proof.Machine

/-- `CLR rd` (40_bignum_primitives.md R81). -/
def execClr (rd : RegId) (s : State) : Result := runCommand s (s.setReg rd 0)

/-- `MOV rd, ra` (40_bignum_primitives.md R82). -/
def execMov (rd ra : RegId) (s : State) : Result := runCommand s (s.setReg rd (s.reg ra))

/-- `LDI rd, #imm` (40_bignum_primitives.md R83). -/
def execLdi (rd : RegId) (imm : Nat) (s : State) : Result := runCommand s (s.setReg rd imm)

/-- `ADD rd, ra, rb` (40_bignum_primitives.md R84). -/
def execAdd (rd ra rb : RegId) (s : State) : Result :=
  runCommand s (s.writeResult rd (encode (.add rd ra rb)) (s.reg ra + s.reg rb))

/-- `SUB rd, ra, rb` (40_bignum_primitives.md R85). -/
def execSub (rd ra rb : RegId) (s : State) : Result :=
  runCommand s <|
    if s.reg ra < s.reg rb then s.raiseFault .underflow (encode (.sub rd ra rb))
    else s.setReg rd (s.reg ra - s.reg rb)

/-- `MUL rd, ra, rb` (40_bignum_primitives.md R86). -/
def execMul (rd ra rb : RegId) (s : State) : Result :=
  runCommand s (s.writeResult rd (encode (.mul rd ra rb)) (s.reg ra * s.reg rb))

/-- `SHLI rd, ra, #n` (40_bignum_primitives.md R87). -/
def execShli (rd ra : RegId) (imm : Nat) (s : State) : Result :=
  runCommand s (s.writeResult rd (encode (.shli rd ra imm)) (shiftLeft (s.reg ra) imm))

/-- `SHRI rd, ra, #n` (40_bignum_primitives.md R88). -/
def execShri (rd ra : RegId) (imm : Nat) (s : State) : Result :=
  runCommand s (s.setReg rd (shiftRight (s.reg ra) imm))

/-- `MASKI rd, ra, #n` (40_bignum_primitives.md R89). -/
def execMaski (rd ra : RegId) (imm : Nat) (s : State) : Result :=
  runCommand s (s.setReg rd (maskLowBits (s.reg ra) imm))

/-- `SHLADD rd, ra, rb, #n`: an addition, not a bitwise or (40_bignum_primitives.md R90; 90_conflicts.md C4). -/
def execShladd (rd ra rb : RegId) (imm : Nat) (s : State) : Result :=
  runCommand s
    (s.writeResult rd (encode (.shladd rd ra rb imm)) (shiftLeft (s.reg ra) imm + s.reg rb))

/-- `BITLEN rd, ra` (40_bignum_primitives.md R91). -/
def execBitlen (rd ra : RegId) (s : State) : Result :=
  runCommand s (s.setReg rd (bitLength (s.reg ra)))

/-- `CMP ra, rb` (40_bignum_primitives.md R92). -/
def execCmp (ra rb : RegId) (s : State) : Result :=
  runCommand s (s.setCompare (equalFlag (s.reg ra) (s.reg rb)) (lessFlag (s.reg ra) (s.reg rb)))

end Sys2Proof.Machine
end

