-- ==== Sys2Proof/Machine/System.lean ====
section
/-! DEFINITION. The meaning of the one system command (44_system.md R141). -/

namespace Sys2Proof.Machine

/-- `ZEROIZE` (44_system.md R141). -/
def execZeroize (s : State) : Result := runCommand s s.zeroAll

end Sys2Proof.Machine
end

