-- ==== Sys2Proof/Machine/Dispatch.lean ====
section
/-! DEFINITION. One arm for each command, each one call of the command's meaning. -/

namespace Sys2Proof.Machine

/-- `execute` of 20_memory.md R45 on a decoded command. -/
def exec (i : Instr) (s : State) : Host.Outcome State Fault Refusal :=
  match i with
  | .clr rd => Sys2Proof.Machine.execClr rd s
  | .mov rd ra => Sys2Proof.Machine.execMov rd ra s
  | .ldi rd imm => Sys2Proof.Machine.execLdi rd imm s
  | .add rd ra rb => Sys2Proof.Machine.execAdd rd ra rb s
  | .sub rd ra rb => Sys2Proof.Machine.execSub rd ra rb s
  | .mul rd ra rb => Sys2Proof.Machine.execMul rd ra rb s
  | .shli rd ra imm => Sys2Proof.Machine.execShli rd ra imm s
  | .shri rd ra imm => Sys2Proof.Machine.execShri rd ra imm s
  | .maski rd ra imm => Sys2Proof.Machine.execMaski rd ra imm s
  | .shladd rd ra rb imm => Sys2Proof.Machine.execShladd rd ra rb imm s
  | .bitlen rd ra => Sys2Proof.Machine.execBitlen rd ra s
  | .cmp ra rb => Sys2Proof.Machine.execCmp ra rb s
  | .montmul rd ra rb rm => Sys2Proof.Machine.execMontmul rd ra rb rm s
  | .montrr rd rm => Sys2Proof.Machine.execMontrr rd rm s
  | .modexp rd ra rb rm => Sys2Proof.Machine.execModexp rd ra rb rm s
  | .modinv rd ra rm => Sys2Proof.Machine.execModinv rd ra rm s
  | .zeroize => Sys2Proof.Machine.execZeroize s

end Sys2Proof.Machine
end

