-- ==== Sys2Proof/Machine/Window.lean ====
section
/-! DEFINITION. The host window (20_memory.md): the address map, a host read, a host write, the execution of a command
by a write of CMD, and what one input of the outside world does. -/

namespace Sys2Proof.Machine

/-- What an accepted address of the window is (20_memory.md R44). -/
inductive Target where
  | cmd
  | status
  | cause
  | errcmd
  | param
  | limb (i : RegId) (j : Nat)
deriving DecidableEq, Repr

/-- The address map of 20_memory.md R44; none is an access that R43 refuses: (a) the width, (b) the alignment, (c) the
window's end, (d) a reserved range. -/
def windowTarget (c : Config) (addr width : Nat) : Option Target :=
  if width ≠ 4 ∨ addr % 4 ≠ 0 ∨ 0xFFFF < addr then none
  else if addr = 0x0000 then some .cmd
  else if addr = 0x0004 then some .status
  else if addr = 0x0008 then some .cause
  else if addr = 0x000C then some .errcmd
  else if addr = 0x0010 then some .param
  else if addr < 0x8000 then none
  else if (addr - 0x8000) % 0x800 / 4 < c.L then
    some (.limb (Fin.ofNat 16 ((addr - 0x8000) / 0x800)) ((addr - 0x8000) % 0x800 / 4))
  else none

/-- The word that a read of a target returns (10_state.md R25 to R29; 20_memory.md R46). -/
def readTarget (s : State) : Target → Word
  | .cmd => 0
  | .status => s.statusWord
  | .cause => s.causeWord
  | .errcmd => s.errcmd
  | .param => s.paramWord
  | .limb i j => BitVec.ofNat 32 (limb (s.reg i) j)

/-- A write of the word `w` to CMD (20_memory.md R45): discarded while `ERR = 1` (60_exceptions.md R176), IllegalCommand
when the word decodes to no command (60_exceptions.md R174), and otherwise the command. -/
def commandWrite (w : Word) (s : State) : Result :=
  if s.err then .next s
  else
    match decode w with
    | .error _ => .next (s.raiseFault .illegalCommand w)
    | .ok i => exec i s

/-- A write of `v` to STATUS (10_state.md R26): bit 0 acknowledges the fault, every other bit is ignored. -/
def statusWrite (v : Word) (s : State) : State := if v.getLsbD 0 then s.acknowledge else s

/-- The effect of an accepted write (20_memory.md R42): CAUSE, ERRCMD and PARAM ignore it. -/
def writeTarget (s : State) (v : Word) : Target → Result
  | .cmd => commandWrite v s
  | .status => .next (statusWrite v s)
  | .cause => .next s
  | .errcmd => .next s
  | .param => .next s
  | .limb i j => .next (s.setReg i (replaceLimb (s.reg i) j v.toNat))

/-- A host read: its response; the state is unchanged (20_memory.md R41). -/
def memRead (addr width : Nat) (s : State) : Response :=
  match windowTarget s.cfg addr width with
  | none => .busError
  | some t => .data (readTarget s t)

/-- A host write: its effect and its response (20_memory.md R42). -/
def memWrite (addr width : Nat) (v : Word) (s : State) : Result × Response :=
  match windowTarget s.cfg addr width with
  | none => (.next s, .busError)
  | some t => (writeTarget s v t, .done)

/-- One access of the host: the engine's effect and its response (10_state.md R20). -/
def hostAccess (a : HostAccess) (s : State) : Result × Response :=
  match a with
  | .read addr width => (.next s, memRead addr width s)
  | .write addr width v => memWrite addr width v s

/-- One input from outside. An access that gets `bus_error` has no meaning in the model (20_memory.md R43;
60_exceptions.md R188; log 4); a reset takes effect between two accesses (70_reset_and_hazards.md R190). -/
def serve (s : State) : Input → Result
  | .reset => .next s.resetEngine
  | .access a =>
    if (hostAccess a s).2 = .busError then .refused .busError
    else mapNext (fun t => t.respond (hostAccess a s).2) (hostAccess a s).1

/-- One turn of the machine: the host's next input is served; with none to come the engine does nothing
(10_state.md R20; log 3). -/
def turn (s : State) : Result :=
  match s.pending with
  | [] => .next s
  | input :: rest => serve (s.take rest) input

/-- `s` with a write of the word of an opcode-table row to CMD as the host's next access (20_memory.md R45). -/
def State.withCommand (s : State) (w : Word) : State :=
  s.take (.access (.write 0x0000 4 w) :: s.pending)

/-- The byte at offset `a` where a platform shows the window as bytes: bits `8(a mod 4)+7 : 8(a mod 4)` of the word at
`a - a mod 4` (20_memory.md R47 (b)); none where that word is refused. -/
def byteView (a : Nat) (s : State) : Option (BitVec 8) :=
  (windowTarget s.cfg (a - a % 4) 4).map fun t =>
    BitVec.ofNat 8 (bits (readTarget s t).toNat (8 * (a % 4) + 7) (8 * (a % 4)))

end Sys2Proof.Machine
end

