-- ==== Sys2Proof/Machine/Step.lean ====
section
/-! DEFINITION. One step of the machine, and how a command word comes to be the one the next step runs. -/

namespace Sys2Proof.Machine

/-- One step: the host's next input is served (10_state.md R20). -/
def step (s : State) : Host.Outcome State Fault Refusal := turn s

/-- `s` with the command word of an opcode-table row as the host's next access, a write of CMD (20_memory.md R45;
log 2). -/
def State.withFetchWord (s : State) (nbits w : Nat) : State := s.withCommand (tableWord nbits w)

end Sys2Proof.Machine
end

