-- ==== Sys2Proof/Machine/Sequences.lean ====
section
/-! DEFINITION. The command sequences that the spec gives a host (45_padded_rsa_sequences.md; 41_montgomery.md R116) and the
host's own decisions around them. None of this is the engine: the engine executes each command as it comes. -/

namespace Sys2Proof.Machine

/-- Commands written to CMD one after the other (10_state.md R23), as their effects on the engine. -/
def runCommands : List Instr → State → Result
  | [], s => .next s
  | i :: rest, s =>
    match exec i s with
    | .next t => runCommands rest t
    | .fault r => .fault r
    | .refused r => .refused r

/-- The host access that issues a command (20_memory.md R45). -/
def commandAccess (i : Instr) : Input := .access (.write 0x0000 4 (encode i))

/-- The offset of limb `j` of register `i` (20_memory.md R44). -/
def limbOffset (i : RegId) (j : Nat) : Nat := 0x8000 + 0x800 * i.val + 4 * j

/-- The accesses by which a host loads `x[i]` with `v`: its `L` limbs, lowest first (20_memory.md R46). -/
def loadRegister (c : Config) (i : RegId) (v : Nat) : List Input :=
  (List.range c.L).map fun j => .access (.write (limbOffset i j) 4 (BitVec.ofNat 32 (limb v j)))

/-- The accesses by which a host reads `x[i]` (20_memory.md R46). -/
def unloadRegister (c : Config) (i : RegId) : List Input :=
  (List.range c.L).map fun j => .access (.read (limbOffset i j) 4)

/-- The accesses by which a host wipes the registers after a fault: acknowledge, then ZEROIZE (44_system.md R141;
45_padded_rsa_sequences.md R153). -/
def wipeInputs : List Input := [.access (.write 0x0004 4 1), commandAccess .zeroize]

/-- `x[10] = x[2] * x[3] mod x[4]` by Montgomery products (41_montgomery.md R116). -/
def montgomeryProduct : List Instr :=
  [.montrr 5 4, .montmul 6 2 5 4, .montmul 7 3 5 4, .montmul 8 6 7 4, .ldi 9 1, .montmul 10 8 9 4]

/-- The modulus sizes the sequences are defined for (45_padded_rsa_sequences.md R151; 93_implementation_defined.md U7,
U8). -/
def validNumBits (c : Config) (numBits : Nat) : Bool :=
  numBits % 2 == 0 && 48 < numBits && numBits ≤ c.K

/-- The widths of the padding fields: `r_bits` of the nonce and `m_bits` of the plaintext
(45_padded_rsa_sequences.md R151). -/
structure FieldWidths where
  rBits : Nat
  mBits : Nat
deriving DecidableEq, Repr

/-- The field widths of a modulus size; none where the spec gives the size no meaning: the widths of such a size are not
rounded and not cut off at 0 (45_padded_rsa_sequences.md R151; 93_implementation_defined.md U7, U8;
91_not_in_source.md N9). -/
def fieldWidths (c : Config) (numBits : Nat) : Option FieldWidths :=
  if validNumBits c numBits then some ⟨numBits / 2, numBits / 2 - 24⟩ else none

/-- A run of a sequence that depends on the modulus size; refused where the spec gives the size no meaning
(93_implementation_defined.md U7, U8; log 13). -/
def runSized (numBits : Nat) (sequence : FieldWidths → List Instr) (s : State) : Result :=
  match fieldWidths s.cfg numBits with
  | none => .refused .modulusSize
  | some w => runCommands (sequence w) s

/-- Key generation from `x[1] = p`, `x[2] = q` (45_padded_rsa_sequences.md R152). -/
def keyGeneration : List Instr :=
  [.ldi 15 1, .mul 3 1 2, .sub 4 1 15, .sub 5 2 15, .mul 6 4 5, .ldi 7 3, .modinv 8 7 6,
   .clr 1, .clr 2, .clr 4, .clr 5, .clr 6]

/-- Padding of `x[2] = m` with the nonce `x[1] = r` into `x[3]` (45_padded_rsa_sequences.md R156). -/
def padSequence (w : FieldWidths) : List Instr :=
  [.ldi 3 2, .shladd 3 3 1 w.rBits, .shli 3 3 8, .shladd 3 3 2 w.mBits]

/-- Encryption of `x[3]` under `x[4] = N`, `x[5] = e` into `x[6]` (45_padded_rsa_sequences.md R158). -/
def encryptSequence : List Instr := [.modexp 6 3 5 4, .clr 1, .clr 3]

/-- Decryption of `x[1] = c` under `x[2] = d`, `x[4] = N` into `x[6]`, with no check of the padding
(45_padded_rsa_sequences.md R160). -/
def decryptSequence (w : FieldWidths) : List Instr :=
  [.modexp 3 1 2 4, .maski 6 3 w.mBits, .clr 2, .clr 3]

/-- The strict check of `x[2] = m`: `LT = 1` iff `m_bits < bit_length(m)` (45_padded_rsa_sequences.md R159 (b)). -/
def strictCheck (w : FieldWidths) : List Instr :=
  [.bitlen 13 2, .ldi 14 w.mBits, .cmp 14 13]

/-- The padded value as an integer (45_padded_rsa_sequences.md R156). -/
def paddedValue (w : FieldWidths) (r m : Nat) : Nat :=
  2 * 2 ^ (w.rBits + 8 + w.mBits) + r * 2 ^ (8 + w.mBits) + m

/-- The host's test of a nonce: no zero byte in its `ceil(r_bits/8)` bytes (45_padded_rsa_sequences.md R155). DESIGN
CHOICE (log 18): of an `r` that these bytes cannot hold, whose bytes 00_scope.md R14 does not define, it tests the low
`ceil(r_bits/8)` bytes alone. -/
def nonceAccepted (w : FieldWidths) (r : Nat) : Bool :=
  (toBytesBE r ((w.rBits + 7) / 8)).all fun b => b != 0

/-- The document's error kinds that the engine's arithmetic can give rise to (45_padded_rsa_sequences.md R163). -/
inductive DocumentError where
  | keyGenerationFailed
  | plaintextTooLarge
deriving DecidableEq, Repr

/-- The document's error kind of a recorded cause: only NoInverse has one (45_padded_rsa_sequences.md R163;
60_exceptions.md R187). -/
def Cause.documentError : Cause → Option DocumentError
  | .noInverse => some .keyGenerationFailed
  | .none => Option.none
  | .illegalCommand => Option.none
  | .badModulus => Option.none
  | .operandRange => Option.none
  | .overflow => Option.none
  | .underflow => Option.none

/-- What a host that pads does (45_padded_rsa_sequences.md R159): with `strict` (the open parameter `strict_plaintext`)
it runs the check first and stops on `LT = 1`; without, it pads at once. Either way it is refused at a size that has no
meaning. -/
def padPlan (strict : Bool) (numBits : Nat) (s : State) : Except DocumentError Result :=
  if strict then
    match runSized numBits strictCheck s with
    | .next t =>
      if t.lt then .error .plaintextTooLarge else .ok (runSized numBits padSequence t)
    | .fault r => .ok (.fault r)
    | .refused r => .ok (.refused r)
  else .ok (runSized numBits padSequence s)

end Sys2Proof.Machine
end

