-- ==== Sys2Proof/Safety.lean ====
section
/-! DEFINITION. The terms in which claims about the engine are made: the invariant of its state, what it is for a command
to write one register or to fault and leave everything else alone, and which causes a command may record. -/

namespace Sys2Proof.Machine

/-- The configuration and the host's side are untouched. -/
def SameOutside (s t : State) : Prop :=
  t.cfg = s.cfg ∧ t.pending = s.pending ∧ t.response = s.response

/-- Both compare flags are untouched. -/
def SameFlags (s t : State) : Prop := t.eq = s.eq ∧ t.lt = s.lt

/-- The fault record is untouched. -/
def SameRecord (s t : State) : Prop := t.err = s.err ∧ t.cause = s.cause ∧ t.errcmd = s.errcmd

/-- Every register is untouched. -/
def SameRegs (s t : State) : Prop := ∀ r, t.reg r = s.reg r

/-- `t` is `s` with `x[rd] = v`, and nothing else changed: every other register, the flags, the fault record, the
configuration and the host's side are those of `s`. -/
def Writes (rd : RegId) (v : Nat) (s t : State) : Prop :=
  t.reg rd = v ∧ (∀ r, r ≠ rd → t.reg r = s.reg r) ∧ SameFlags s t ∧ SameRecord s t ∧ SameOutside s t

/-- `t` is `s` with the fault `c` of the command word `w` on record, and nothing else changed (60_exceptions.md
R175). -/
def Faults (c : Cause) (w : Word) (s t : State) : Prop :=
  t.err = true ∧ t.cause = c ∧ t.errcmd = w ∧ SameRegs s t ∧ SameFlags s t ∧ SameOutside s t

/-- The command answers a next state, and that state has the property `P`. -/
def Completes (i : Instr) (s : State) (P : State → Prop) : Prop := ∃ t, exec i s = .next t ∧ P t

/-- The invariant of the engine: the width is one that 00_scope.md R7 admits, every register holds an integer below
`2^K` (10_state.md R22), `CAUSE = 0` exactly when `ERR = 0` (R27), `ERRCMD = 0` when `ERR = 0` (R28), and `EQ` and
`LT` are never both 1 (R26). -/
def State.Inv (s : State) : Prop :=
  s.cfg.legal = true ∧ (∀ r, s.reg r < 2 ^ s.cfg.K) ∧ (s.cause = .none ↔ s.err = false) ∧
    (s.err = false → s.errcmd = 0) ∧ ¬(s.eq = true ∧ s.lt = true)

/-- The causes a command may record (60_exceptions.md R171; 40_bignum_primitives.md R94). -/
def mayRaise : Instr → Cause → Bool
  | .add _ _ _, c => c == .overflow
  | .mul _ _ _, c => c == .overflow
  | .shli _ _ _, c => c == .overflow
  | .shladd _ _ _ _, c => c == .overflow
  | .sub _ _ _, c => c == .underflow
  | .montmul _ _ _ _, c => c == .badModulus || c == .operandRange
  | .montrr _ _, c => c == .badModulus
  | .modexp _ _ _ _, c => c == .badModulus
  | .modinv _ _ _, c => c == .badModulus || c == .noInverse
  | .clr _, _ => false
  | .mov _ _, _ => false
  | .ldi _ _, _ => false
  | .shri _ _ _, _ => false
  | .maski _ _ _, _ => false
  | .bitlen _ _, _ => false
  | .cmp _ _, _ => false
  | .zeroize, _ => false

/-- The fault on record, if there is one, is a fault of the command word on record: IllegalCommand of a word that is no
command, and otherwise a cause its command may raise (10_state.md R28; 60_exceptions.md R171, R175). -/
def State.RecordCoherent (s : State) : Prop :=
  s.err = true →
    match decode s.errcmd with
    | .error _ => s.cause = .illegalCommand
    | .ok i => mayRaise i s.cause = true

end Sys2Proof.Machine
end

