-- ==== Sys2Proof/Certificates/Slice0/Obligations.lean ====
section
/-! DEFINITION. The statements for the provers, taken from the numbered rules of spec/ file by file. -/

open Sys2Proof Sys2Proof.Machine

/-! ### Encoding (30_encoding.md) -/

/-- Decoding the word of a well-formed command gives the command back: no operand bit is lost (R65, R69). -/
def Obligations.DecodeOfEncode : Prop :=
  ∀ i : Instr, i.wellFormed = true → decode (encode i) = .ok i

/-- A word that decodes to a command is that command's one word, and the command is well formed (R66; D8 "One encoding
per command"). -/
def Obligations.EncodeOfDecode : Prop :=
  ∀ (w : Word) (i : Instr), decode w = .ok i → encode i = w ∧ i.wellFormed = true

/-- The decoder gives a row's command exactly to the words that select the row by its mask and match, and no word
selects two rows (R64, R65). -/
def Obligations.DecodeFollowsOpcodeMap : Prop :=
  ∀ w : Word,
    (∀ row ∈ opcodeMap, row.selectedBy w = true ↔ ∃ i, decode w = .ok i ∧ i.mnemonic = row.mnemonic) ∧
    (∀ row ∈ opcodeMap, ∀ row' ∈ opcodeMap,
      row.selectedBy w = true → row'.selectedBy w = true → row = row')

/-- A word is illegal in exactly the cases (a) and (b) of R66: an opcode outside the map, or an opcode of the map with a
bit set that its row wants zero. -/
def Obligations.IllegalWordsAreExactly : Prop :=
  ∀ w : Word,
    (decode w = .error .unusedOpcode ↔
      (bits w.toNat 31 26 = 0x00 ∨ (0x0D ≤ bits w.toNat 31 26 ∧ bits w.toNat 31 26 ≤ 0x0F) ∨
        (0x12 ≤ bits w.toNat 31 26 ∧ bits w.toNat 31 26 ≤ 0x17) ∨
        (0x1A ≤ bits w.toNat 31 26 ∧ bits w.toNat 31 26 ≤ 0x3E))) ∧
    (decode w = .error .mustBeZero ↔
      ∃ row ∈ opcodeMap, bits w.toNat 31 26 = bits row.match_.toNat 31 26 ∧ row.selectedBy w = false)

/-- Words written out from the encoding decode to the commands they stand for (R64, R69; one of each format and more). -/
def Obligations.SpecWordsDecode : Prop :=
  decode 0x05400000 = .ok (.clr 5) ∧ decode 0x0FC03FFF = .ok (.ldi 15 16383) ∧
  decode 0x1048C000 = .ok (.add 1 2 3) ∧ decode 0x2848C020 = .ok (.shladd 1 2 3 32) ∧
  decode 0x303B4000 = .ok (.cmp 14 13) ∧ decode 0x4048D000 = .ok (.montmul 1 2 3 4) ∧
  decode 0x45401000 = .ok (.montrr 5 4) ∧ decode 0x60048C00 = .ok (.modexp 0 1 2 3) ∧
  decode 0x659C2000 = .ok (.modinv 6 7 8) ∧ decode 0xFC000000 = .ok .zeroize

/-! ### The commands, one statement each: word, effect, frame, faults -/

/-- CLR (40_bignum_primitives.md R81). -/
def Obligations.ClrWritesZero : Prop :=
  ∀ rd : RegId,
    (encode (.clr rd)).toNat = 0x01 * 2 ^ 26 + rd * 2 ^ 22 ∧
    ∀ s : State, s.err = false → Completes (.clr rd) s (Writes rd 0 s)

/-- MOV (40_bignum_primitives.md R82). -/
def Obligations.MovCopiesRegister : Prop :=
  ∀ rd ra : RegId,
    (encode (.mov rd ra)).toNat = 0x02 * 2 ^ 26 + rd * 2 ^ 22 + ra * 2 ^ 18 ∧
    ∀ s : State, s.err = false → Completes (.mov rd ra) s (Writes rd (s.reg ra) s)

/-- LDI, for every immediate of the 14-bit field (40_bignum_primitives.md R83). -/
def Obligations.LdiWritesImmediate : Prop :=
  ∀ (rd : RegId) (imm : Nat), imm < 2 ^ 14 →
    (encode (.ldi rd imm)).toNat = 0x03 * 2 ^ 26 + rd * 2 ^ 22 + imm ∧
    ∀ s : State, s.err = false → Completes (.ldi rd imm) s (Writes rd imm s)

/-- ADD: the exact sum, or Overflow with nothing written (40_bignum_primitives.md R84). -/
def Obligations.AddWritesExactSum : Prop :=
  ∀ rd ra rb : RegId,
    (encode (.add rd ra rb)).toNat = 0x04 * 2 ^ 26 + rd * 2 ^ 22 + ra * 2 ^ 18 + rb * 2 ^ 14 ∧
    ∀ s : State, s.err = false →
      (s.reg ra + s.reg rb < 2 ^ s.cfg.K →
        Completes (.add rd ra rb) s (Writes rd (s.reg ra + s.reg rb) s)) ∧
      (2 ^ s.cfg.K ≤ s.reg ra + s.reg rb →
        Completes (.add rd ra rb) s (Faults .overflow (encode (.add rd ra rb)) s))

/-- SUB: the exact difference, or Underflow with nothing written (40_bignum_primitives.md R85). -/
def Obligations.SubWritesExactDifference : Prop :=
  ∀ rd ra rb : RegId,
    (encode (.sub rd ra rb)).toNat = 0x05 * 2 ^ 26 + rd * 2 ^ 22 + ra * 2 ^ 18 + rb * 2 ^ 14 ∧
    ∀ s : State, s.err = false →
      (∀ d, s.reg ra = s.reg rb + d → Completes (.sub rd ra rb) s (Writes rd d s)) ∧
      (s.reg ra < s.reg rb →
        Completes (.sub rd ra rb) s (Faults .underflow (encode (.sub rd ra rb)) s))

/-- MUL: the exact product, or Overflow with nothing written (40_bignum_primitives.md R86). The last clause is the
inference that R86 marks as its own: no fault when the bit lengths add up to at most `K`. -/
def Obligations.MulWritesExactProduct : Prop :=
  ∀ rd ra rb : RegId,
    (encode (.mul rd ra rb)).toNat = 0x06 * 2 ^ 26 + rd * 2 ^ 22 + ra * 2 ^ 18 + rb * 2 ^ 14 ∧
    ∀ s : State, s.err = false →
      (s.reg ra * s.reg rb < 2 ^ s.cfg.K →
        Completes (.mul rd ra rb) s (Writes rd (s.reg ra * s.reg rb) s)) ∧
      (2 ^ s.cfg.K ≤ s.reg ra * s.reg rb →
        Completes (.mul rd ra rb) s (Faults .overflow (encode (.mul rd ra rb)) s)) ∧
      (bitLength (s.reg ra) + bitLength (s.reg rb) ≤ s.cfg.K →
        Completes (.mul rd ra rb) s (Writes rd (s.reg ra * s.reg rb) s))

/-- SHLI: the exact shifted value, or Overflow exactly when the operand is not 0 and its bits do not fit
(40_bignum_primitives.md R87). -/
def Obligations.ShliWritesExactShift : Prop :=
  ∀ (rd ra : RegId) (n : Nat), n < 2 ^ 14 →
    (encode (.shli rd ra n)).toNat = 0x07 * 2 ^ 26 + rd * 2 ^ 22 + ra * 2 ^ 18 + n ∧
    ∀ s : State, s.err = false →
      ((s.reg ra = 0 ∨ bitLength (s.reg ra) + n ≤ s.cfg.K) →
        Completes (.shli rd ra n) s (Writes rd (s.reg ra * 2 ^ n) s)) ∧
      (s.reg ra ≠ 0 → s.cfg.K < bitLength (s.reg ra) + n →
        Completes (.shli rd ra n) s (Faults .overflow (encode (.shli rd ra n)) s))

/-- SHRI: the floor of the quotient by `2^n` (40_bignum_primitives.md R88). -/
def Obligations.ShriWritesQuotient : Prop :=
  ∀ (rd ra : RegId) (n : Nat), n < 2 ^ 14 →
    (encode (.shri rd ra n)).toNat = 0x08 * 2 ^ 26 + rd * 2 ^ 22 + ra * 2 ^ 18 + n ∧
    ∀ s : State, s.err = false → Completes (.shri rd ra n) s (Writes rd (s.reg ra / 2 ^ n) s)

/-- MASKI: the remainder modulo `2^n` (40_bignum_primitives.md R89). -/
def Obligations.MaskiKeepsLowBits : Prop :=
  ∀ (rd ra : RegId) (n : Nat), n < 2 ^ 14 →
    (encode (.maski rd ra n)).toNat = 0x09 * 2 ^ 26 + rd * 2 ^ 22 + ra * 2 ^ 18 + n ∧
    ∀ s : State, s.err = false → Completes (.maski rd ra n) s (Writes rd (s.reg ra % 2 ^ n) s)

/-- SHLADD: the exact shifted sum, which is a bitwise or where the fields do not overlap, or Overflow
(40_bignum_primitives.md R90). -/
def Obligations.ShladdWritesExactSum : Prop :=
  ∀ (rd ra rb : RegId) (n : Nat), n < 2 ^ 14 →
    (encode (.shladd rd ra rb n)).toNat = 0x0A * 2 ^ 26 + rd * 2 ^ 22 + ra * 2 ^ 18 + rb * 2 ^ 14 + n ∧
    ∀ s : State, s.err = false →
      (s.reg ra * 2 ^ n + s.reg rb < 2 ^ s.cfg.K →
        Completes (.shladd rd ra rb n) s (Writes rd (s.reg ra * 2 ^ n + s.reg rb) s)) ∧
      (s.reg ra * 2 ^ n + s.reg rb < 2 ^ s.cfg.K → s.reg rb < 2 ^ n →
        Completes (.shladd rd ra rb n) s (Writes rd ((s.reg ra <<< n) ||| s.reg rb) s)) ∧
      (2 ^ s.cfg.K ≤ s.reg ra * 2 ^ n + s.reg rb →
        Completes (.shladd rd ra rb n) s (Faults .overflow (encode (.shladd rd ra rb n)) s))

/-- BITLEN: the least `n` with the operand below `2^n` (40_bignum_primitives.md R91; 00_scope.md R12). -/
def Obligations.BitlenWritesBitLength : Prop :=
  ∀ rd ra : RegId,
    (encode (.bitlen rd ra)).toNat = 0x0B * 2 ^ 26 + rd * 2 ^ 22 + ra * 2 ^ 18 ∧
    ∀ s : State, s.err = false →
      ∃ n, s.reg ra < 2 ^ n ∧ (∀ m, s.reg ra < 2 ^ m → n ≤ m) ∧
        Completes (.bitlen rd ra) s (Writes rd n s)

/-- CMP: both flags, unsigned, and nothing else (40_bignum_primitives.md R92). -/
def Obligations.CmpWritesBothFlags : Prop :=
  ∀ ra rb : RegId,
    (encode (.cmp ra rb)).toNat = 0x0C * 2 ^ 26 + ra * 2 ^ 18 + rb * 2 ^ 14 ∧
    ∀ s : State, s.err = false →
      Completes (.cmp ra rb) s fun t =>
        (t.eq = true ↔ s.reg ra = s.reg rb) ∧ (t.lt = true ↔ s.reg ra < s.reg rb) ∧
          SameRegs s t ∧ SameRecord s t ∧ SameOutside s t

/-- MONTMUL: BadModulus, then OperandRange, and otherwise the residue `v` below `N` with `v * R` congruent to `a * b`
modulo `N` (41_montgomery.md R112; 60_exceptions.md R180). -/
def Obligations.MontmulWritesMontgomeryProduct : Prop :=
  ∀ rd ra rb rm : RegId,
    (encode (.montmul rd ra rb rm)).toNat =
      0x10 * 2 ^ 26 + rd * 2 ^ 22 + ra * 2 ^ 18 + rb * 2 ^ 14 + rm * 2 ^ 10 ∧
    ∀ s : State, s.err = false →
      (s.reg rm % 2 = 1 → s.reg ra < s.reg rm → s.reg rb < s.reg rm →
        ∃ v, v < s.reg rm ∧
          v * 2 ^ (32 * ((bitLength (s.reg rm) + 31) / 32)) ≡ s.reg ra * s.reg rb [MOD s.reg rm] ∧
          Completes (.montmul rd ra rb rm) s (Writes rd v s)) ∧
      (s.reg rm % 2 = 1 → (s.reg rm ≤ s.reg ra ∨ s.reg rm ≤ s.reg rb) →
        Completes (.montmul rd ra rb rm) s
          (Faults .operandRange (encode (.montmul rd ra rb rm)) s)) ∧
      ((s.reg rm = 0 ∨ s.reg rm % 2 = 0) →
        Completes (.montmul rd ra rb rm) s (Faults .badModulus (encode (.montmul rd ra rb rm)) s))

/-- MONTRR: BadModulus, or `2^(64n) mod N` (41_montgomery.md R113). -/
def Obligations.MontrrWritesConversionConstant : Prop :=
  ∀ rd rm : RegId,
    (encode (.montrr rd rm)).toNat = 0x11 * 2 ^ 26 + rd * 2 ^ 22 + rm * 2 ^ 10 ∧
    ∀ s : State, s.err = false →
      (s.reg rm % 2 = 1 →
        Completes (.montrr rd rm) s
          (Writes rd (2 ^ (64 * ((bitLength (s.reg rm) + 31) / 32)) % s.reg rm) s)) ∧
      ((s.reg rm = 0 ∨ s.reg rm % 2 = 0) →
        Completes (.montrr rd rm) s (Faults .badModulus (encode (.montrr rd rm)) s))

/-- MODEXP: BadModulus for a zero modulus, and otherwise the power reduced, for every base, exponent and modulus, with
`0^0 = 1` (42_modexp.md R120, R121). -/
def Obligations.ModexpWritesPower : Prop :=
  ∀ rd ra rb rm : RegId,
    (encode (.modexp rd ra rb rm)).toNat =
      0x18 * 2 ^ 26 + rd * 2 ^ 22 + ra * 2 ^ 18 + rb * 2 ^ 14 + rm * 2 ^ 10 ∧
    ∀ s : State, s.err = false →
      (s.reg rm ≠ 0 →
        Completes (.modexp rd ra rb rm) s (Writes rd (s.reg ra ^ s.reg rb % s.reg rm) s)) ∧
      (s.reg rm = 0 →
        Completes (.modexp rd ra rb rm) s (Faults .badModulus (encode (.modexp rd ra rb rm)) s))

/-- MODINV: BadModulus, then NoInverse, and otherwise the one inverse in `[0, m)` (43_modinv.md R130, R131;
60_exceptions.md R180). -/
def Obligations.ModinvWritesInverse : Prop :=
  ∀ rd ra rm : RegId,
    (encode (.modinv rd ra rm)).toNat = 0x19 * 2 ^ 26 + rd * 2 ^ 22 + ra * 2 ^ 18 + rm * 2 ^ 10 ∧
    ∀ s : State, s.err = false →
      (s.reg rm ≠ 0 → Nat.gcd (s.reg ra) (s.reg rm) = 1 →
        ∃ d, d < s.reg rm ∧ s.reg ra * d ≡ 1 [MOD s.reg rm] ∧
          Completes (.modinv rd ra rm) s (Writes rd d s)) ∧
      (s.reg rm ≠ 0 → Nat.gcd (s.reg ra) (s.reg rm) ≠ 1 →
        Completes (.modinv rd ra rm) s (Faults .noInverse (encode (.modinv rd ra rm)) s)) ∧
      (s.reg rm = 0 →
        Completes (.modinv rd ra rm) s (Faults .badModulus (encode (.modinv rd ra rm)) s))

/-- ZEROIZE: all registers and both flags; every other word of its opcode is illegal (44_system.md R141). The last clause
is the inference that R141 marks as its own: with the invariant, the engine is then as the model's reset event leaves it
(log 10). -/
def Obligations.ZeroizeReachesResetState : Prop :=
  encode .zeroize = 0xFC000000 ∧
  (∀ w : Word, bits w.toNat 31 26 = 0x3F → w ≠ 0xFC000000 → decode w = .error .mustBeZero) ∧
  ∀ s : State, s.err = false →
    (Completes .zeroize s fun t =>
      (∀ r, t.reg r = 0) ∧ t.eq = false ∧ t.lt = false ∧ SameRecord s t ∧ SameOutside s t) ∧
    (s.Inv → Completes .zeroize s fun t => t = s.resetEngine)

/-! ### Commands in general -/

/-- When the host's next access writes the word of a command to CMD, the step is that command's meaning, the access is
taken from the host's list, and the response is `ok` (20_memory.md R45). -/
def Obligations.StepRunsDecodedCommand : Prop :=
  ∀ (s : State) (rest : List Input) (w : Word) (i : Instr),
    s.pending = .access (.write 0x0000 4 w) :: rest → decode w = .ok i →
      step s = mapNext (fun t => t.respond .done) (exec i (s.take rest))

/-- Each of the 17 commands answers a next state in every state and with every operand: none stops the machine
(70_reset_and_hazards.md R195). -/
def Obligations.EveryCommandTerminates : Prop :=
  ∀ (i : Instr) (s : State), ∃ t, exec i s = .next t

/-- An illegal word written to CMD with no fault on record records IllegalCommand with the word, changes nothing else,
and is answered with `ok` (60_exceptions.md R174; 30_encoding.md R66). -/
def Obligations.IllegalWordRecordsFault : Prop :=
  ∀ (s : State) (rest : List Input) (w : Word) (e : IllegalWord),
    s.pending = .access (.write 0x0000 4 w) :: rest → s.err = false → decode w = .error e →
      ∃ t, step s = .next (t.respond .done) ∧ Faults .illegalCommand w (s.take rest) t

/-- While a fault is on record every word written to CMD, legal or not, has no effect and is answered with `ok`
(60_exceptions.md R176). The second clause is the model's choice (log 8): the discard also stands in every meaning. -/
def Obligations.CommandsDiscardedWhileFault : Prop :=
  ∀ s : State, s.err = true →
    (∀ (rest : List Input) (w : Word), s.pending = .access (.write 0x0000 4 w) :: rest →
      step s = .next ((s.take rest).respond .done)) ∧
    (∀ i : Instr, exec i s = .next s)

/-- A fault is precise: a command that leaves a fault on record has recorded its own word and a cause, and has left
every register and flag as they were (60_exceptions.md R175). -/
def Obligations.FaultEntryIsPrecise : Prop :=
  ∀ (i : Instr) (s t : State), s.err = false → exec i s = .next t → t.err = true →
    t.cause ≠ .none ∧ Faults t.cause (encode i) s t

/-- A command records no cause but those listed for it, and eight commands record none (60_exceptions.md R171;
40_bignum_primitives.md R94). -/
def Obligations.CommandsRaiseOnlyTheirCauses : Prop :=
  ∀ (i : Instr) (s t : State), s.err = false → exec i s = .next t → t.err = true →
    mayRaise i t.cause = true

/-- A command other than ZEROIZE writes at most its destination register, and so every limb of every other register
reads as before through the window (40_bignum_primitives.md R80). -/
def Obligations.CommandsWriteOneRegisterAtMost : Prop :=
  ∀ (i : Instr) (s t : State), i ≠ .zeroize → exec i s = .next t →
    ∀ r, i.dest? ≠ some r →
      t.reg r = s.reg r ∧ ∀ j, readTarget t (.limb r j) = readTarget s (.limb r j)

/-- No command but CMP and ZEROIZE writes a compare flag (10_state.md R24; 40_bignum_primitives.md R80). -/
def Obligations.OnlyCmpAndZeroizeWriteFlags : Prop :=
  ∀ (i : Instr) (s t : State), (∀ ra rb, i ≠ .cmp ra rb) → i ≠ .zeroize → exec i s = .next t →
    SameFlags s t

/-- A command depends on the registers it names as sources and on nothing else: two ready engines of one width that agree
on them fault alike, and otherwise write the same destination value and the same flags (00_scope.md R15). -/
def Obligations.CommandsSeeOnlyTheirSources : Prop :=
  ∀ (i : Instr) (s s' t t' : State), s.cfg = s'.cfg → s.err = false → s'.err = false →
    (∀ r ∈ i.sources, s.reg r = s'.reg r) → exec i s = .next t → exec i s' = .next t' →
    t.err = t'.err ∧
    (t.err = true → t.cause = t'.cause ∧ t.errcmd = t'.errcmd) ∧
    (t.err = false → ∀ r, i.dest? = some r → t.reg r = t'.reg r) ∧
    (∀ ra rb, i = .cmp ra rb → t.eq = t'.eq ∧ t.lt = t'.lt)

/-- A command neither sees nor changes what the host will do next or what it was last answered (10_state.md R32,
R34). -/
def Obligations.CommandsIgnoreTheHost : Prop :=
  ∀ (i : Instr) (s : State) (p : List Input) (r : Option Response),
    exec i { s with pending := p, response := r } =
      mapNext (fun t => { t with pending := p, response := r }) (exec i s)

/-! ### Invariants of the machine -/

/-- Every step keeps the invariant: legal width, registers below `2^K`, the record empty exactly when `ERR = 0`, never
`EQ` and `LT` together (10_state.md R22, R26, R27, R28). -/
def Obligations.StepKeepsEngineInvariant : Prop :=
  ∀ s t : State, s.Inv → step s = .next t → t.Inv

/-- Both invariants hold after reset. -/
def Obligations.ResetMeetsEngineInvariant : Prop := State.reset.Inv ∧ State.reset.RecordCoherent

/-- Every step keeps the fault record coherent: the recorded cause is one that the recorded command word may raise
(10_state.md R28; 60_exceptions.md R171, R175). -/
def Obligations.StepKeepsRecordCoherent : Prop :=
  ∀ s t : State, s.RecordCoherent → step s = .next t → t.RecordCoherent

/-- No step, not even a reset, changes the width, and so PARAM reads the same for ever (10_state.md R29). -/
def Obligations.StepKeepsWidth : Prop :=
  ∀ s t : State, step s = .next t → t.cfg = s.cfg ∧ t.paramWord = s.paramWord

/-! ### Reset (70_reset_and_hazards.md; 10_state.md R33) -/

/-- After reset every register, flag and record is 0. -/
def Obligations.ResetClearsArchitecturalState : Prop :=
  (∀ r, State.reset.reg r = 0) ∧ State.reset.err = false ∧ State.reset.eq = false ∧
    State.reset.lt = false ∧ State.reset.cause = .none ∧ State.reset.errcmd = 0

/-- The reset event, between two accesses, gives every piece of engine state its reset value whatever it was before, and
PARAM stays (R190, R191). That the width and the accesses still to come stay is the model's choice (log 10). -/
def Obligations.ResetEventYieldsResetState : Prop :=
  ∀ (s : State) (rest : List Input), s.pending = .reset :: rest →
    ∃ t, step s = .next t ∧ (∀ r, t.reg r = 0) ∧ t.err = false ∧ t.eq = false ∧ t.lt = false ∧
      t.cause = .none ∧ t.errcmd = 0 ∧ t.cfg = s.cfg ∧ t.paramWord = s.paramWord ∧ t.pending = rest

/-! ### The host window (20_memory.md) -/

/-- The address map: the five control words, and limb `j` of register `i` at `0x8000 + 0x800*i + 4*j` for each `j < L`
(R44). -/
def Obligations.AddressMapIsTheTable : Prop :=
  ∀ c : Config, c.legal = true →
    windowTarget c 0x0000 4 = some .cmd ∧ windowTarget c 0x0004 4 = some .status ∧
    windowTarget c 0x0008 4 = some .cause ∧ windowTarget c 0x000C 4 = some .errcmd ∧
    windowTarget c 0x0010 4 = some .param ∧
    (∀ addr, 0x0014 ≤ addr → addr ≤ 0x7FFF → windowTarget c addr 4 = none) ∧
    (∀ (i : RegId) (j : Nat), j < c.L → windowTarget c (0x8000 + 0x800 * i + 4 * j) 4 = some (.limb i j)) ∧
    (∀ (i : RegId) (j : Nat), c.L ≤ j → j < 512 → windowTarget c (0x8000 + 0x800 * i + 4 * j) 4 = none)

/-- An access is answered with `bus_error` in exactly the cases of R43, and then nothing changes. -/
def Obligations.BusErrorExactly : Prop :=
  ∀ (s : State) (addr width : Nat) (v : Word), s.cfg.legal = true →
    (memRead addr width s = .busError ↔
      (width ≠ 4 ∨ addr % 4 ≠ 0 ∨ 0xFFFF < addr ∨ (0x0014 ≤ addr ∧ addr ≤ 0x7FFF) ∨
        (0x8000 ≤ addr ∧ s.cfg.L ≤ (addr - 0x8000) % 0x800 / 4))) ∧
    ((memWrite addr width v s).2 = .busError ↔ memRead addr width s = .busError) ∧
    ((memWrite addr width v s).2 = .busError → (memWrite addr width v s).1 = .next s)

/-- The model's choice that R43 and R188 ask for (log 4): a step whose access gets `bus_error` is refused by name. -/
def Obligations.StepRefusesBusError : Prop :=
  ∀ (s : State) (a : HostAccess) (rest : List Input), s.pending = .access a :: rest →
    (hostAccess a (s.take rest)).2 = .busError → step s = .refused .busError

/-- A read that the window accepts completes, answers the word of its target, and changes no engine state
(R41). -/
def Obligations.ReadsHaveNoSideEffect : Prop :=
  ∀ (s : State) (addr : Nat) (t : Target) (rest : List Input),
    s.pending = .access (.read addr 4) :: rest → windowTarget s.cfg addr 4 = some t →
      step s = .next ((s.take rest).respond (.data (readTarget s t)))

/-- Limb `j` of `x[i]` reads as bits `32j+31:32j`; a write replaces that limb and no other bit, at all times, also while a
fault is on record, and reads back as written (R46). -/
def Obligations.LimbWriteReplacesOneLimb : Prop :=
  ∀ (s : State) (i : RegId) (j : Nat),
    (readTarget s (.limb i j)).toNat = s.reg i / 2 ^ (32 * j) % 2 ^ 32 ∧
    ∀ (v : Word) (rest : List Input), s.cfg.legal = true → j < s.cfg.L →
      s.pending = .access (.write (0x8000 + 0x800 * i + 4 * j) 4 v) :: rest →
      ∃ t, step s = .next (t.respond .done) ∧
        Writes i (s.reg i - s.reg i / 2 ^ (32 * j) % 2 ^ 32 * 2 ^ (32 * j) + v.toNat * 2 ^ (32 * j))
          (s.take rest) t ∧
        readTarget t (.limb i j) = v ∧
        ∀ k, k ≠ j → readTarget t (.limb i k) = readTarget s (.limb i k)

/-- The limbs of a register that the host reads, weighted by `2^(32j)`, add up to its value: limb 0 is the least
significant (R46, R47). -/
def Obligations.LimbsMakeTheValue : Prop :=
  ∀ (s : State) (i : RegId), s.Inv →
    ((List.range s.cfg.L).map fun j => (readTarget s (.limb i j)).toNat * 2 ^ (32 * j)).sum = s.reg i

/-- In the byte view the byte at `0x8000 + 0x800*i + k` is bits `8k+7:8k` of `x[i]` (R47). -/
def Obligations.ByteViewIsLittleEndian : Prop :=
  ∀ (s : State) (i : RegId) (k : Nat), s.cfg.legal = true → k < 4 * s.cfg.L →
    byteView (0x8000 + 0x800 * i + k) s = some (BitVec.ofNat 8 (s.reg i / 2 ^ (8 * k) % 2 ^ 8))

/-- STATUS reads `ERR + 2*EQ + 4*LT`; a write with bit 0 set clears the record and nothing else, a write with bit 0
clear changes nothing (10_state.md R26; 60_exceptions.md R182). -/
def Obligations.StatusReadsAndAcknowledges : Prop :=
  ∀ s : State,
    (readTarget s .status).toNat = s.err.toNat + 2 * s.eq.toNat + 4 * s.lt.toNat ∧
    ∀ (v : Word) (rest : List Input), s.pending = .access (.write 0x0004 4 v) :: rest →
      (v.toNat % 2 = 0 → step s = .next ((s.take rest).respond .done)) ∧
      (v.toNat % 2 = 1 →
        ∃ t, step s = .next (t.respond .done) ∧ t.err = false ∧ t.cause = .none ∧ t.errcmd = 0 ∧
          SameRegs s t ∧ SameFlags s t ∧ SameOutside (s.take rest) t)

/-- CAUSE, ERRCMD and PARAM accept a write and ignore it, also as the step of a host that makes it; CMD reads 0; CAUSE
reads the code that the table of R171 gives the recorded cause; PARAM reads the width, the limb width and the revision
(10_state.md R25, R27, R28, R29; 20_memory.md R42; 60_exceptions.md R171). -/
def Obligations.ReadOnlyRegistersIgnoreWrites : Prop :=
  ∀ s : State,
    (∀ v : Word, writeTarget s v .cause = .next s ∧ writeTarget s v .errcmd = .next s ∧
      writeTarget s v .param = .next s) ∧
    (∀ (addr : Nat) (v : Word) (rest : List Input), addr ∈ [0x0008, 0x000C, 0x0010] →
      s.pending = .access (.write addr 4 v) :: rest → step s = .next ((s.take rest).respond .done)) ∧
    readTarget s .cmd = 0 ∧ readTarget s .errcmd = s.errcmd ∧
    (readTarget s .cause = 0 ↔ s.cause = .none) ∧
    (readTarget s .cause = 1 ↔ s.cause = .illegalCommand) ∧
    (readTarget s .cause = 2 ↔ s.cause = .badModulus) ∧
    (readTarget s .cause = 3 ↔ s.cause = .operandRange) ∧
    (readTarget s .cause = 4 ↔ s.cause = .noInverse) ∧
    (readTarget s .cause = 5 ↔ s.cause = .overflow) ∧
    (readTarget s .cause = 6 ↔ s.cause = .underflow) ∧
    (readTarget s .cause).toNat ≤ 6 ∧
    (s.cfg.legal = true →
      (readTarget s .param).toNat % 2 ^ 16 = s.cfg.K ∧
      (readTarget s .param).toNat / 2 ^ 16 % 2 ^ 8 = 32 ∧ (readTarget s .param).toNat / 2 ^ 24 = 1)

/-! ### The functions and their reference datapaths -/

/-- The Montgomery radix of a modulus: its limb count is at least 1 and brackets the modulus, and the radix is coprime to
an odd modulus (41_montgomery.md R110). -/
def Obligations.MontgomeryRadixBracketsModulus : Prop :=
  ∀ N : Nat, 1 ≤ N →
    1 ≤ limbCount N ∧ 2 ^ (32 * (limbCount N - 1)) ≤ N ∧ N < 2 ^ (32 * limbCount N) ∧
      radix N = 2 ^ (32 * limbCount N) ∧ (N % 2 = 1 → Nat.gcd (radix N) N = 1)

/-- The Montgomery product is the one residue `t` with `t * R` congruent to `a * b`, and takes Montgomery forms to
Montgomery forms (41_montgomery.md R111). -/
def Obligations.MonProIsTheMontgomeryProduct : Prop :=
  ∀ N a b : Nat, N % 2 = 1 →
    (monPro a b N < N ∧ monPro a b N * radix N ≡ a * b [MOD N] ∧
      ∀ t, t < N → t * radix N ≡ a * b [MOD N] → t = monPro a b N) ∧
    monPro a b 1 = 0 ∧
    monPro (a * radix N % N) (b * radix N % N) N = a * b * radix N % N ∧
    monPro a (radix N ^ 2 % N) N = a * radix N % N ∧
    monPro (a * radix N % N) 1 N = a % N

/-- The word-serial datapath computes the Montgomery product for an odd modulus and reduced factors
(41_montgomery.md R114). -/
def Obligations.WordSerialComputesMonPro : Prop :=
  ∀ N a b : Nat, N % 2 = 1 → a < N → b < N → monProWordSerial a b N = monPro a b N

/-- Restoring division gives the quotient and the remainder (42_modexp.md R123). -/
def Obligations.RestoringDivisionIsCorrect : Prop :=
  ∀ u N : Nat, 1 ≤ N →
    u = (divRem u N).1 * N + (divRem u N).2 ∧ (divRem u N).2 < N ∧ (divRem u N).2 = u % N

/-- The reference exponentiation engine, on the word-serial multiplier for an odd modulus and on restoring division for
an even one, computes `b^e mod N` (42_modexp.md R122). -/
def Obligations.ModExpEngineComputesPower : Prop :=
  ∀ b e N : Nat, 1 ≤ N → modExpEngine b e N = b ^ e % N

/-- The iterative extended Euclidean engine answers NoInverse exactly when the gcd is not 1, and otherwise the inverse
in `[0, m)` (43_modinv.md R130, R132). -/
def Obligations.EuclidEngineComputesInverse : Prop :=
  ∀ a m : Nat, 1 ≤ m →
    (modInvEngine a m = none ↔ Nat.gcd a m ≠ 1) ∧
    (∀ d, modInvEngine a m = some d → d < m ∧ a * d ≡ 1 [MOD m])

/-- The big-endian bytes of a value and the value of big-endian bytes are inverse to each other (00_scope.md R14). -/
def Obligations.BytesBigEndianRoundTrip : Prop :=
  (∀ v n : Nat, v < 2 ^ (8 * n) →
    (toBytesBE v n).length = n ∧ fromBytesBE (toBytesBE v n) = v ∧
    ∀ i, i < n → (toBytesBE v n)[i]? = some (BitVec.ofNat 8 (v / 2 ^ (8 * (n - 1 - i)) % 2 ^ 8))) ∧
  ∀ b : List (BitVec 8), toBytesBE (fromBytesBE b) b.length = b

/-! ### The spec's own command sequences (41_montgomery.md R116; 45_padded_rsa_sequences.md) -/

/-- Four Montgomery products multiply two residues (41_montgomery.md R116); at `N = 1` the last factor 1 is out of range
and the sequence ends with OperandRange on record. -/
def Obligations.MontgomerySequenceMultiplies : Prop :=
  ∀ s : State, s.err = false → s.reg 4 % 2 = 1 → s.reg 2 < s.reg 4 → s.reg 3 < s.reg 4 →
    ∃ t, runCommands montgomeryProduct s = .next t ∧
      (1 < s.reg 4 → t.err = false ∧ t.reg 10 = s.reg 2 * s.reg 3 % s.reg 4) ∧
      (s.reg 4 = 1 → t.err = true ∧ t.cause = .operandRange)

/-- The key-generation sequence leaves `N`, 3 and an inverse of 3 modulo `(p-1)(q-1)` and clears the secrets; when 3 is
not invertible it leaves NoInverse on record and the five clears have no effect. Outside that: `p` or `q` of 1 makes the
modulus `(p-1)(q-1)` 0 and leaves BadModulus, a zero `p` or `q` leaves Underflow at its SUB, and a product of `2^K` or
more leaves Overflow at the MUL (45_padded_rsa_sequences.md R152, R153; 40_bignum_primitives.md R85, R86; 43_modinv.md
R131). -/
def Obligations.KeyGenerationMakesKeyOrFails : Prop :=
  ∀ (s : State) (p q : Nat), s.err = false → s.reg 1 = p → s.reg 2 = q →
    ∃ t, runCommands keyGeneration s = .next t ∧
      (1 < p → 1 < q → p * q < 2 ^ s.cfg.K → Nat.gcd 3 ((p - 1) * (q - 1)) = 1 →
        t.err = false ∧ t.reg 3 = p * q ∧ t.reg 7 = 3 ∧ t.reg 8 < (p - 1) * (q - 1) ∧
          3 * t.reg 8 ≡ 1 [MOD (p - 1) * (q - 1)] ∧
          ∀ r ∈ [1, 2, 4, 5, 6], t.reg r = 0) ∧
      (1 < p → 1 < q → p * q < 2 ^ s.cfg.K → Nat.gcd 3 ((p - 1) * (q - 1)) ≠ 1 →
        t.err = true ∧ t.cause = .noInverse ∧ t.errcmd = 0x661C1800 ∧ t.reg 8 = s.reg 8 ∧
          t.reg 1 = p ∧ t.reg 2 = q ∧ t.reg 4 = p - 1 ∧ t.reg 5 = q - 1 ∧
          t.reg 6 = (p - 1) * (q - 1)) ∧
      (1 ≤ p → 1 ≤ q → p = 1 ∨ q = 1 → p * q < 2 ^ s.cfg.K →
        t.err = true ∧ t.cause = .badModulus ∧ t.errcmd = 0x661C1800 ∧ t.reg 8 = s.reg 8) ∧
      (p = 0 → t.err = true ∧ t.cause = .underflow ∧ t.errcmd = 0x1507C000 ∧ t.reg 4 = s.reg 4) ∧
      (1 ≤ p → q = 0 →
        t.err = true ∧ t.cause = .underflow ∧ t.errcmd = 0x154BC000 ∧ t.reg 5 = s.reg 5) ∧
      (2 ^ s.cfg.K ≤ p * q →
        t.err = true ∧ t.cause = .overflow ∧ t.errcmd = 0x18C48000 ∧ t.reg 3 = s.reg 3 ∧
          t.reg 1 = p ∧ t.reg 2 = q)

/-- The padding sequence builds the padded value, without overflow, and its bit length is `num_bits - 14`
(45_padded_rsa_sequences.md R151, R156, R157). At a size that is odd, at most 48 or above `K` it has no meaning and its
run is refused (R151; 93_implementation_defined.md U7, U8; log 13). -/
def Obligations.PadSequenceBuildsPaddedValue : Prop :=
  ∀ (s : State) (numBits : Nat),
    (s.err = false → numBits % 2 = 0 → 48 < numBits → numBits ≤ s.cfg.K →
      s.reg 1 < 2 ^ (numBits / 2) → s.reg 2 < 2 ^ (numBits / 2 - 24) →
      ∃ t, runSized numBits padSequence s = .next t ∧ t.err = false ∧
        t.reg 3 = 2 ^ (numBits - 15) + s.reg 1 * 2 ^ (numBits / 2 - 16) + s.reg 2 ∧
        bitLength (t.reg 3) = numBits - 14) ∧
    ((numBits % 2 = 1 ∨ numBits ≤ 48 ∨ s.cfg.K < numBits) →
      runSized numBits padSequence s = .refused .modulusSize)

/-- The strict check sets `LT` exactly when the plaintext is longer than its field; the strict host then stops with the
document's error, and otherwise pads (45_padded_rsa_sequences.md R151, R159). At a size that has no meaning both are
refused (log 13). -/
def Obligations.StrictCheckFindsOversizedPlaintext : Prop :=
  ∀ (s : State) (numBits : Nat),
    (s.err = false → numBits % 2 = 0 → 48 < numBits → numBits ≤ s.cfg.K →
      (∃ t, runSized numBits strictCheck s = .next t ∧ t.err = false ∧
        (t.lt = true ↔ numBits / 2 - 24 < bitLength (s.reg 2)) ∧ t.reg 2 = s.reg 2) ∧
      (numBits / 2 - 24 < bitLength (s.reg 2) →
        padPlan true numBits s = .error .plaintextTooLarge) ∧
      (bitLength (s.reg 2) ≤ numBits / 2 - 24 → s.reg 1 < 2 ^ (numBits / 2) →
        ∃ u, padPlan true numBits s = .ok (.next u) ∧ u.err = false ∧
          u.reg 3 = 2 ^ (numBits - 15) + s.reg 1 * 2 ^ (numBits / 2 - 16) + s.reg 2)) ∧
    ((numBits % 2 = 1 ∨ numBits ≤ 48 ∨ s.cfg.K < numBits) →
      runSized numBits strictCheck s = .refused .modulusSize ∧
        ∀ strict, padPlan strict numBits s = .ok (.refused .modulusSize))

/-- Of the functions that the sequences compute (`CipherSequencesComputeAndClear` says that they compute them): decryption
undoes encryption. For distinct primes, `e*d` congruent to 1 modulo `(p-1)(q-1)`, and a padded value below `N`, the
decrypted and masked value is the plaintext's low `m_bits` bits; and the padded value is below `N` when the nonce and the
plaintext fit their fields and `N` has the stated size (45_padded_rsa_sequences.md R157, R159, R161). -/
def Obligations.DecryptionUndoesEncryption : Prop :=
  ∀ (c : Config) (numBits p q d r m : Nat) (w : FieldWidths), fieldWidths c numBits = some w →
    Nat.Prime p → Nat.Prime q → p ≠ q → 3 * d ≡ 1 [MOD (p - 1) * (q - 1)] →
    (paddedValue w r m < p * q →
      maskLowBits (modExp (modExp (paddedValue w r m) 3 (p * q)) d (p * q)) w.mBits =
        m % 2 ^ w.mBits) ∧
    (r < 2 ^ w.rBits → m < 2 ^ w.mBits → 2 ^ (numBits - 2) ≤ p * q →
      paddedValue w r m < p * q)

/-- The encryption and decryption sequences, run on the machine: the result, the clears and the frame, or BadModulus with
every later command of the sequence discarded (45_padded_rsa_sequences.md R151, R158, R160). Decryption at a size that
has no meaning is refused (log 13). -/
def Obligations.CipherSequencesComputeAndClear : Prop :=
  ∀ s : State, s.err = false →
    (s.reg 4 ≠ 0 →
      ∃ t, runCommands encryptSequence s = .next t ∧ t.err = false ∧
        t.reg 6 = s.reg 3 ^ s.reg 5 % s.reg 4 ∧ t.reg 1 = 0 ∧ t.reg 3 = 0 ∧
        (∀ r, r ≠ 1 → r ≠ 3 → r ≠ 6 → t.reg r = s.reg r) ∧
        SameFlags s t ∧ SameRecord s t ∧ SameOutside s t) ∧
    (s.reg 4 = 0 →
      ∃ t, runCommands encryptSequence s = .next t ∧ Faults .badModulus 0x618D5000 s t) ∧
    ∀ numBits : Nat,
      (numBits % 2 = 0 → 48 < numBits → numBits ≤ s.cfg.K →
        (s.reg 4 ≠ 0 →
          ∃ t, runSized numBits decryptSequence s = .next t ∧ t.err = false ∧
            t.reg 6 = s.reg 1 ^ s.reg 2 % s.reg 4 % 2 ^ (numBits / 2 - 24) ∧
            t.reg 2 = 0 ∧ t.reg 3 = 0 ∧
            (∀ r, r ≠ 2 → r ≠ 3 → r ≠ 6 → t.reg r = s.reg r) ∧
            SameFlags s t ∧ SameRecord s t ∧ SameOutside s t) ∧
        (s.reg 4 = 0 →
          ∃ t, runSized numBits decryptSequence s = .next t ∧ Faults .badModulus 0x60C49000 s t)) ∧
      ((numBits % 2 = 1 ∨ numBits ≤ 48 ∨ s.cfg.K < numBits) →
        runSized numBits decryptSequence s = .refused .modulusSize)
end

