-- ==== Sys2Proof/Laws/State.lean ====
section
/-! SUPPORT. What each field of the state is after each update of Machine/Ops.lean, one lemma a field, so that no proof
unfolds a record update; and the register read after each update. -/

namespace Sys2Proof.Machine

@[simp] theorem State.setReg_cfg (s : State) (r : RegId) (v : Nat) : (s.setReg r v).cfg = s.cfg := rfl
@[simp] theorem State.setReg_x (s : State) (r : RegId) (v : Nat) : (s.setReg r v).x = s.x.set r.val v r.isLt := rfl
@[simp] theorem State.setReg_err (s : State) (r : RegId) (v : Nat) : (s.setReg r v).err = s.err := rfl
@[simp] theorem State.setReg_eq (s : State) (r : RegId) (v : Nat) : (s.setReg r v).eq = s.eq := rfl
@[simp] theorem State.setReg_lt (s : State) (r : RegId) (v : Nat) : (s.setReg r v).lt = s.lt := rfl
@[simp] theorem State.setReg_cause (s : State) (r : RegId) (v : Nat) : (s.setReg r v).cause = s.cause := rfl
@[simp] theorem State.setReg_errcmd (s : State) (r : RegId) (v : Nat) : (s.setReg r v).errcmd = s.errcmd := rfl
@[simp] theorem State.setReg_pending (s : State) (r : RegId) (v : Nat) : (s.setReg r v).pending = s.pending := rfl
@[simp] theorem State.setReg_response (s : State) (r : RegId) (v : Nat) : (s.setReg r v).response = s.response := rfl

@[simp] theorem State.raiseFault_cfg (s : State) (c : Cause) (w : Word) : (s.raiseFault c w).cfg = s.cfg := rfl
@[simp] theorem State.raiseFault_x (s : State) (c : Cause) (w : Word) : (s.raiseFault c w).x = s.x := rfl
@[simp] theorem State.raiseFault_err (s : State) (c : Cause) (w : Word) : (s.raiseFault c w).err = true := rfl
@[simp] theorem State.raiseFault_eq (s : State) (c : Cause) (w : Word) : (s.raiseFault c w).eq = s.eq := rfl
@[simp] theorem State.raiseFault_lt (s : State) (c : Cause) (w : Word) : (s.raiseFault c w).lt = s.lt := rfl
@[simp] theorem State.raiseFault_cause (s : State) (c : Cause) (w : Word) : (s.raiseFault c w).cause = c := rfl
@[simp] theorem State.raiseFault_errcmd (s : State) (c : Cause) (w : Word) : (s.raiseFault c w).errcmd = w := rfl
@[simp] theorem State.raiseFault_pending (s : State) (c : Cause) (w : Word) : (s.raiseFault c w).pending = s.pending := rfl
@[simp] theorem State.raiseFault_response (s : State) (c : Cause) (w : Word) : (s.raiseFault c w).response = s.response := rfl

@[simp] theorem State.acknowledge_cfg (s : State) : s.acknowledge.cfg = s.cfg := rfl
@[simp] theorem State.acknowledge_x (s : State) : s.acknowledge.x = s.x := rfl
@[simp] theorem State.acknowledge_err (s : State) : s.acknowledge.err = false := rfl
@[simp] theorem State.acknowledge_eq (s : State) : s.acknowledge.eq = s.eq := rfl
@[simp] theorem State.acknowledge_lt (s : State) : s.acknowledge.lt = s.lt := rfl
@[simp] theorem State.acknowledge_cause (s : State) : s.acknowledge.cause = .none := rfl
@[simp] theorem State.acknowledge_errcmd (s : State) : s.acknowledge.errcmd = 0 := rfl
@[simp] theorem State.acknowledge_pending (s : State) : s.acknowledge.pending = s.pending := rfl
@[simp] theorem State.acknowledge_response (s : State) : s.acknowledge.response = s.response := rfl

@[simp] theorem State.zeroAll_cfg (s : State) : s.zeroAll.cfg = s.cfg := rfl
@[simp] theorem State.zeroAll_x (s : State) : s.zeroAll.x = Vector.replicate 16 0 := rfl
@[simp] theorem State.zeroAll_err (s : State) : s.zeroAll.err = s.err := rfl
@[simp] theorem State.zeroAll_eq (s : State) : s.zeroAll.eq = false := rfl
@[simp] theorem State.zeroAll_lt (s : State) : s.zeroAll.lt = false := rfl
@[simp] theorem State.zeroAll_cause (s : State) : s.zeroAll.cause = s.cause := rfl
@[simp] theorem State.zeroAll_errcmd (s : State) : s.zeroAll.errcmd = s.errcmd := rfl
@[simp] theorem State.zeroAll_pending (s : State) : s.zeroAll.pending = s.pending := rfl
@[simp] theorem State.zeroAll_response (s : State) : s.zeroAll.response = s.response := rfl

@[simp] theorem State.setCompare_cfg (s : State) (e l : Bool) : (s.setCompare e l).cfg = s.cfg := rfl
@[simp] theorem State.setCompare_x (s : State) (e l : Bool) : (s.setCompare e l).x = s.x := rfl
@[simp] theorem State.setCompare_err (s : State) (e l : Bool) : (s.setCompare e l).err = s.err := rfl
@[simp] theorem State.setCompare_eq (s : State) (e l : Bool) : (s.setCompare e l).eq = e := rfl
@[simp] theorem State.setCompare_lt (s : State) (e l : Bool) : (s.setCompare e l).lt = l := rfl
@[simp] theorem State.setCompare_cause (s : State) (e l : Bool) : (s.setCompare e l).cause = s.cause := rfl
@[simp] theorem State.setCompare_errcmd (s : State) (e l : Bool) : (s.setCompare e l).errcmd = s.errcmd := rfl
@[simp] theorem State.setCompare_pending (s : State) (e l : Bool) : (s.setCompare e l).pending = s.pending := rfl
@[simp] theorem State.setCompare_response (s : State) (e l : Bool) : (s.setCompare e l).response = s.response := rfl

@[simp] theorem State.resetEngine_cfg (s : State) : s.resetEngine.cfg = s.cfg := rfl
@[simp] theorem State.resetEngine_x (s : State) : s.resetEngine.x = Vector.replicate 16 0 := rfl
@[simp] theorem State.resetEngine_err (s : State) : s.resetEngine.err = false := rfl
@[simp] theorem State.resetEngine_eq (s : State) : s.resetEngine.eq = false := rfl
@[simp] theorem State.resetEngine_lt (s : State) : s.resetEngine.lt = false := rfl
@[simp] theorem State.resetEngine_cause (s : State) : s.resetEngine.cause = .none := rfl
@[simp] theorem State.resetEngine_errcmd (s : State) : s.resetEngine.errcmd = 0 := rfl
@[simp] theorem State.resetEngine_pending (s : State) : s.resetEngine.pending = s.pending := rfl
@[simp] theorem State.resetEngine_response (s : State) : s.resetEngine.response = s.response := rfl

@[simp] theorem State.take_cfg (s : State) (rest : List Input) : (s.take rest).cfg = s.cfg := rfl
@[simp] theorem State.take_x (s : State) (rest : List Input) : (s.take rest).x = s.x := rfl
@[simp] theorem State.take_err (s : State) (rest : List Input) : (s.take rest).err = s.err := rfl
@[simp] theorem State.take_eq (s : State) (rest : List Input) : (s.take rest).eq = s.eq := rfl
@[simp] theorem State.take_lt (s : State) (rest : List Input) : (s.take rest).lt = s.lt := rfl
@[simp] theorem State.take_cause (s : State) (rest : List Input) : (s.take rest).cause = s.cause := rfl
@[simp] theorem State.take_errcmd (s : State) (rest : List Input) : (s.take rest).errcmd = s.errcmd := rfl
@[simp] theorem State.take_pending (s : State) (rest : List Input) : (s.take rest).pending = rest := rfl
@[simp] theorem State.take_response (s : State) (rest : List Input) : (s.take rest).response = s.response := rfl

@[simp] theorem State.respond_cfg (s : State) (a : Response) : (s.respond a).cfg = s.cfg := rfl
@[simp] theorem State.respond_x (s : State) (a : Response) : (s.respond a).x = s.x := rfl
@[simp] theorem State.respond_err (s : State) (a : Response) : (s.respond a).err = s.err := rfl
@[simp] theorem State.respond_eq (s : State) (a : Response) : (s.respond a).eq = s.eq := rfl
@[simp] theorem State.respond_lt (s : State) (a : Response) : (s.respond a).lt = s.lt := rfl
@[simp] theorem State.respond_cause (s : State) (a : Response) : (s.respond a).cause = s.cause := rfl
@[simp] theorem State.respond_errcmd (s : State) (a : Response) : (s.respond a).errcmd = s.errcmd := rfl
@[simp] theorem State.respond_pending (s : State) (a : Response) : (s.respond a).pending = s.pending := rfl
@[simp] theorem State.respond_response (s : State) (a : Response) : (s.respond a).response = some a := rfl

/-- A register read after a write: the value at the register written, the old value elsewhere. -/
theorem State.reg_setReg (s : State) (r q : RegId) (v : Nat) :
    (s.setReg r v).reg q = if q = r then v else s.reg q := by
  by_cases h : q = r
  · subst h; simp [State.reg, State.setReg]
  · have : r.val ≠ q.val := fun e => h (Fin.ext e.symm)
    simp [State.reg, State.setReg, h, Vector.getElem_set_ne, this]

@[simp] theorem State.reg_setReg_self (s : State) (r : RegId) (v : Nat) : (s.setReg r v).reg r = v := by
  simp [State.reg_setReg]

@[simp] theorem State.reg_setReg_of_ne (s : State) (r q : RegId) (v : Nat) (h : q ≠ r) :
    (s.setReg r v).reg q = s.reg q := by
  simp [State.reg_setReg, h]

@[simp] theorem State.reg_raiseFault (s : State) (c : Cause) (w : Word) (q : RegId) :
    (s.raiseFault c w).reg q = s.reg q := rfl

@[simp] theorem State.reg_acknowledge (s : State) (q : RegId) : s.acknowledge.reg q = s.reg q := rfl

@[simp] theorem State.reg_zeroAll (s : State) (q : RegId) : s.zeroAll.reg q = 0 := by
  simp [State.reg, State.zeroAll]

@[simp] theorem State.reg_setCompare (s : State) (e l : Bool) (q : RegId) :
    (s.setCompare e l).reg q = s.reg q := rfl

@[simp] theorem State.reg_resetEngine (s : State) (q : RegId) : s.resetEngine.reg q = 0 := by
  simp [State.reg, State.resetEngine, State.reset]

@[simp] theorem State.reg_take (s : State) (rest : List Input) (q : RegId) :
    (s.take rest).reg q = s.reg q := rfl

@[simp] theorem State.reg_respond (s : State) (a : Response) (q : RegId) :
    (s.respond a).reg q = s.reg q := rfl

end Sys2Proof.Machine
end

