-- ==== Sys2Proof/Laws/Ops.lean ====
section
/-! SUPPORT. What each shared operation can do, said once: the discard, the checked write, the fault entry, an input
served, and the plain arithmetic of bit fields and bit lengths. -/

namespace Sys2Proof.Machine

/-! ### The shared operations -/

@[simp] theorem runCommand_of_err (s t : State) (h : s.err = true) : runCommand s t = .next s := by
  simp [runCommand, h]

@[simp] theorem runCommand_of_ready (s t : State) (h : s.err = false) : runCommand s t = .next t := by
  simp [runCommand, h]

/-- A command always answers a next state: the old one while a fault is on record, its rule's state otherwise. -/
theorem runCommand_eq_next (s t u : State) :
    runCommand s t = .next u ↔ (s.err = true ∧ u = s) ∨ (s.err = false ∧ u = t) := by
  cases h : s.err <;> simp [runCommand, h, eq_comm]

theorem State.bound_eq (s : State) : s.bound = 2 ^ s.cfg.K := by
  simp [State.bound, Nat.shiftLeft_eq]

theorem State.writeResult_of_fits (s : State) (rd : RegId) (w : Word) (v : Nat) (h : v < 2 ^ s.cfg.K) :
    s.writeResult rd w v = s.setReg rd v := by
  simp [State.writeResult, State.bound_eq, h]

theorem State.writeResult_of_overflow (s : State) (rd : RegId) (w : Word) (v : Nat)
    (h : 2 ^ s.cfg.K ≤ v) : s.writeResult rd w v = s.raiseFault .overflow w := by
  simp [State.writeResult, State.bound_eq, Nat.not_lt.mpr h]

/-- Writing one register changes that register and nothing else. -/
theorem writes_setReg (s : State) (rd : RegId) (v : Nat) : Writes rd v s (s.setReg rd v) := by
  refine ⟨by simp, fun r hr => by simp [hr], ?_, ?_, ?_⟩ <;>
    simp [SameFlags, SameRecord, SameOutside]

/-- Taking a fault records it and changes nothing else. -/
theorem faults_raiseFault (s : State) (c : Cause) (w : Word) : Faults c w s (s.raiseFault c w) := by
  simp [Faults, SameRegs, SameFlags, SameOutside]

@[simp] theorem mapNext_next (f : State → State) (s : State) : mapNext f (.next s) = .next (f s) := rfl

theorem mapNext_eq_next (f : State → State) (o : Result) (u : State) :
    mapNext f o = .next u ↔ ∃ t, o = .next t ∧ u = f t := by
  cases o <;> simp [mapNext, eq_comm]

@[simp] theorem step_of_idle (s : State) (h : s.pending = []) : step s = .next s := by
  simp [step, turn, h]

theorem step_of_pending (s : State) (input : Input) (rest : List Input)
    (h : s.pending = input :: rest) : step s = serve (s.take rest) input := by
  simp [step, turn, h]

/-- What a step that goes on has done: nothing (no input), a reset, or an access that was not refused. -/
theorem step_cases (s t : State) (h : step s = .next t) :
    (s.pending = [] ∧ t = s) ∨
    (∃ rest, s.pending = .reset :: rest ∧ t = (s.take rest).resetEngine) ∨
    (∃ a rest u, s.pending = .access a :: rest ∧ (hostAccess a (s.take rest)).2 ≠ .busError ∧
      (hostAccess a (s.take rest)).1 = .next u ∧ t = u.respond (hostAccess a (s.take rest)).2) := by
  cases hp : s.pending with
  | nil => rw [step_of_idle s hp] at h; cases h; exact .inl ⟨rfl, rfl⟩
  | cons input rest =>
    rw [step_of_pending s input rest hp] at h
    cases input with
    | reset => simp only [serve] at h; cases h; exact .inr (.inl ⟨rest, rfl, rfl⟩)
    | access a =>
      simp only [serve] at h
      split at h
      · cases h
      · rename_i hb
        obtain ⟨u, hu, rfl⟩ := (mapNext_eq_next _ _ _).mp h
        exact .inr (.inr ⟨a, rest, u, rfl, hb, hu, rfl⟩)

/-- What an accepted access has done to the engine: a read nothing; a write a command, an acknowledgement, nothing, or
the replacement of one limb. -/
theorem hostAccess_cases (a : HostAccess) (s u : State) (h : (hostAccess a s).1 = .next u)
    (hb : (hostAccess a s).2 ≠ .busError) :
    (∃ addr width, a = .read addr width ∧ u = s) ∨
    (∃ addr v t, a = .write addr 4 v ∧ windowTarget s.cfg addr 4 = some t ∧
      writeTarget s v t = .next u) := by
  cases a with
  | read addr width => simp only [hostAccess] at h; cases h; exact .inl ⟨addr, width, rfl, rfl⟩
  | write addr width v =>
    simp only [hostAccess, memWrite] at h hb
    cases ht : windowTarget s.cfg addr width with
    | none => simp [ht] at hb
    | some t =>
      have hw : width = 4 := by
        by_contra hne
        simp [windowTarget, hne] at ht
      subst hw
      exact .inr ⟨addr, v, t, rfl, ht, by simpa [ht] using h⟩

/-! ### Arithmetic of values -/

theorem bits_eq (v hi lo : Nat) : bits v hi lo = v / 2 ^ lo % 2 ^ (hi + 1 - lo) := by
  simp [bits, Nat.shiftRight_eq_div_pow]

theorem limb_eq (v j : Nat) : limb v j = v / 2 ^ (32 * j) % 2 ^ 32 := by
  rw [limb, bits_eq]
  congr 2
  omega

theorem limb_lt (v j : Nat) : limb v j < 2 ^ 32 := by
  rw [limb_eq]; exact Nat.mod_lt _ (by decide)

theorem shiftLeft_eq (v n : Nat) : shiftLeft v n = v * 2 ^ n := by
  simp [shiftLeft, Nat.shiftLeft_eq]

theorem shiftRight_eq (v n : Nat) : shiftRight v n = v / 2 ^ n := by
  simp [shiftRight, Nat.shiftRight_eq_div_pow]

theorem maskLowBits_eq (v n : Nat) : maskLowBits v n = v % 2 ^ n := by
  simp [maskLowBits, Nat.shiftLeft_eq]

/-- `bit_length(v)` is the least `n` with `v < 2^n` (00_scope.md R12). -/
theorem bitLength_le_iff (v n : Nat) : bitLength v ≤ n ↔ v < 2 ^ n := by
  unfold bitLength
  split
  · subst v; simp
  · rw [Nat.succ_le_iff, Nat.log2_lt (by assumption)]

theorem lt_two_pow_bitLength (v : Nat) : v < 2 ^ bitLength v := (bitLength_le_iff v _).mp le_rfl

theorem radix_eq (N : Nat) : radix N = 2 ^ (32 * limbCount N) := by
  simp [radix, Nat.shiftLeft_eq]

theorem montgomeryRR_eq (N : Nat) : montgomeryRR N = 2 ^ (64 * limbCount N) % N := by
  simp [montgomeryRR, Nat.shiftLeft_eq]

end Sys2Proof.Machine
end

