-- ==== Sys2Proof/Laws/PerInstr.lean ====
section
/-! SUPPORT. Facts about every command as syntax, one lemma a constructor. -/

namespace Sys2Proof.Laws.OpcodeField

/-- A well-formed command's word carries its opcode in bits 31:26 (30_encoding.md R61, R64). -/
def Statement (i : Instr) : Prop := i.wellFormed = true → bits (encode i).toNat 31 26 = i.opcode

/-- The opcode field of a packed word whose lower fields are in range. -/
theorem bits_packWord (op low : Nat) (rd ra rb : RegId) (ho : op < 64) (hl : low < 2 ^ 14) :
    bits (packWord op rd ra rb low).toNat 31 26 = op := by
  have := rd.isLt; have := ra.isLt; have := rb.isLt
  simp only [Machine.bits_eq, packWord, BitVec.toNat_ofNat]
  omega

theorem clr (rd : RegId) : Statement (.clr rd) := fun _ =>
  bits_packWord _ _ rd 0 0 (by decide) (by decide)

theorem mov (rd ra : RegId) : Statement (.mov rd ra) := fun _ =>
  bits_packWord _ _ rd ra 0 (by decide) (by decide)

theorem ldi (rd : RegId) (imm : Nat) : Statement (.ldi rd imm) := fun h =>
  bits_packWord _ _ rd 0 0 (by decide) (by simpa [Instr.wellFormed, immFits] using h)

theorem add (rd ra rb : RegId) : Statement (.add rd ra rb) := fun _ =>
  bits_packWord _ _ rd ra rb (by decide) (by decide)

theorem sub (rd ra rb : RegId) : Statement (.sub rd ra rb) := fun _ =>
  bits_packWord _ _ rd ra rb (by decide) (by decide)

theorem mul (rd ra rb : RegId) : Statement (.mul rd ra rb) := fun _ =>
  bits_packWord _ _ rd ra rb (by decide) (by decide)

theorem shli (rd ra : RegId) (imm : Nat) : Statement (.shli rd ra imm) := fun h =>
  bits_packWord _ _ rd ra 0 (by decide) (by simpa [Instr.wellFormed, immFits] using h)

theorem shri (rd ra : RegId) (imm : Nat) : Statement (.shri rd ra imm) := fun h =>
  bits_packWord _ _ rd ra 0 (by decide) (by simpa [Instr.wellFormed, immFits] using h)

theorem maski (rd ra : RegId) (imm : Nat) : Statement (.maski rd ra imm) := fun h =>
  bits_packWord _ _ rd ra 0 (by decide) (by simpa [Instr.wellFormed, immFits] using h)

theorem shladd (rd ra rb : RegId) (imm : Nat) : Statement (.shladd rd ra rb imm) := fun h =>
  bits_packWord _ _ rd ra rb (by decide) (by simpa [Instr.wellFormed, immFits] using h)

theorem bitlen (rd ra : RegId) : Statement (.bitlen rd ra) := fun _ =>
  bits_packWord _ _ rd ra 0 (by decide) (by decide)

theorem cmp (ra rb : RegId) : Statement (.cmp ra rb) := fun _ =>
  bits_packWord _ _ 0 ra rb (by decide) (by decide)

theorem montmul (rd ra rb rm : RegId) : Statement (.montmul rd ra rb rm) := fun _ =>
  bits_packWord _ _ rd ra rb (by decide) (by have := rm.isLt; omega)

theorem montrr (rd rm : RegId) : Statement (.montrr rd rm) := fun _ =>
  bits_packWord _ _ rd 0 0 (by decide) (by have := rm.isLt; omega)

theorem modexp (rd ra rb rm : RegId) : Statement (.modexp rd ra rb rm) := fun _ =>
  bits_packWord _ _ rd ra rb (by decide) (by have := rm.isLt; omega)

theorem modinv (rd ra rm : RegId) : Statement (.modinv rd ra rm) := fun _ =>
  bits_packWord _ _ rd ra 0 (by decide) (by have := rm.isLt; omega)

theorem zeroize : Statement .zeroize := fun _ =>
  bits_packWord _ _ 0 0 0 (by decide) (by decide)

end Sys2Proof.Laws.OpcodeField
end

