-- ==== Sys2Proof/Laws/Sequences.lean ====
section
/-! SUPPORT. What a run of a command sequence is, command by command, and when a run that depends on the modulus size is
one at all. -/

namespace Sys2Proof.Machine

@[simp] theorem runCommands_nil (s : State) : runCommands [] s = .next s := rfl

/-- A sequence whose first command goes on is the rest of the sequence from there. -/
theorem runCommands_cons_of_next {i : Instr} {s t : State} (rest : List Instr) (h : exec i s = .next t) :
    runCommands (i :: rest) s = runCommands rest t := by
  simp [runCommands, h]

/-- The sizes that have a meaning, and the widths they give (45_padded_rsa_sequences.md R151). -/
theorem fieldWidths_eq_some (c : Config) (numBits : Nat) (w : FieldWidths) :
    fieldWidths c numBits = some w ↔
      (numBits % 2 = 0 ∧ 48 < numBits ∧ numBits ≤ c.K) ∧ w = ⟨numBits / 2, numBits / 2 - 24⟩ := by
  simp only [fieldWidths, validNumBits, Bool.and_eq_true, beq_iff_eq, decide_eq_true_eq, and_assoc]
  split <;> simp_all [eq_comm]

/-- The sizes that have none: the complement. -/
theorem fieldWidths_eq_none (c : Config) (numBits : Nat) :
    fieldWidths c numBits = none ↔ numBits % 2 = 1 ∨ numBits ≤ 48 ∨ c.K < numBits := by
  simp [fieldWidths, validNumBits]
  omega

theorem runSized_of_some {numBits : Nat} {w : FieldWidths} {s : State} (sequence : FieldWidths → List Instr)
    (h : fieldWidths s.cfg numBits = some w) : runSized numBits sequence s = runCommands (sequence w) s := by
  simp [runSized, h]

theorem runSized_of_none {numBits : Nat} {s : State} (sequence : FieldWidths → List Instr)
    (h : fieldWidths s.cfg numBits = none) : runSized numBits sequence s = .refused .modulusSize := by
  simp [runSized, h]

end Sys2Proof.Machine
end

