-- ==== Sys2Proof/Tests/Slice0.lean ====
section
/-! SUPPORT. Tests of single steps, whose expected results are the spec's own (95_test_vectors.md, and the examples in the
commands' rules), and for every statement with hypotheses a witness that meets them. -/

namespace Sys2Proof.Tests

open Sys2Proof Sys2Proof.Machine

/-- A state at width `K`, as after reset but for the registers listed. -/
def machine (K : Nat) (l : List (RegId × Nat)) : State :=
  l.foldl (fun s p => s.setReg p.1 p.2) { State.reset with cfg := ⟨K⟩ }

/-- A value read off the next state, if there is one. -/
def after {α : Type} (o : Result) (f : State → α) : Option α :=
  match o with
  | .next t => some (f t)
  | .fault _ => none
  | .refused _ => none

/-- One step whose input is a write of the word `w` to CMD. -/
def command {α : Type} (s : State) (w : Nat) (f : State → α) : Option α :=
  after (step (s.withFetchWord 32 w)) f

/-- What a fault leaves: STATUS, CAUSE, ERRCMD and one register. -/
def faultView (r : RegId) (s : State) : Word × Word × Word × Nat :=
  (s.statusWord, s.causeWord, s.errcmd, s.reg r)

/-! ### Well-formedness: an ill-formed term for each check -/

theorem test_wellFormed_ldi : (Instr.ldi 0 16384).wellFormed = false ∧ (Instr.ldi 0 16383).wellFormed = true := by
  decide
theorem test_wellFormed_shli : (Instr.shli 0 1 16384).wellFormed = false ∧ (Instr.shli 0 1 16383).wellFormed = true := by
  decide
theorem test_wellFormed_shri : (Instr.shri 0 1 16384).wellFormed = false ∧ (Instr.shri 0 1 16383).wellFormed = true := by
  decide
theorem test_wellFormed_maski : (Instr.maski 0 1 16384).wellFormed = false ∧ (Instr.maski 0 1 16383).wellFormed = true := by
  decide
theorem test_wellFormed_shladd : (Instr.shladd 0 1 2 16384).wellFormed = false ∧ (Instr.shladd 0 1 2 16383).wellFormed = true := by
  decide

/-! ### Decoding, every command (95_test_vectors.md 2.1; 30_encoding.md R64, R69) -/

theorem test_decode_clr : decode 0b000001_0101_0000_0000_00000000000000 = .ok (.clr 5) ∧ encode (.clr 5) = 0x05400000 := by
  decide
theorem test_decode_mov : decode 0b000010_0001_0010_0000_00000000000000 = .ok (.mov 1 2) ∧ encode (.mov 1 2) = 0x08480000 := by
  decide
theorem test_decode_ldi : decode 0b000011_1111_0000_0000_11111111111111 = .ok (.ldi 15 16383) ∧ encode (.ldi 15 16383) = 0x0FC03FFF := by
  decide
theorem test_decode_add : decode 0b000100_0001_0010_0011_00000000000000 = .ok (.add 1 2 3) ∧ encode (.add 1 2 3) = 0x1048C000 := by
  decide
theorem test_decode_sub : decode 0b000101_0001_0010_0011_00000000000000 = .ok (.sub 1 2 3) ∧ encode (.sub 1 2 3) = 0x1448C000 := by
  decide
theorem test_decode_mul : decode 0b000110_0100_0101_0110_00000000000000 = .ok (.mul 4 5 6) ∧ encode (.mul 4 5 6) = 0x19158000 := by
  decide
theorem test_decode_shli : decode 0b000111_0001_0001_0000_00000000100000 = .ok (.shli 1 1 32) ∧ encode (.shli 1 1 32) = 0x1C440020 := by
  decide
theorem test_decode_shri : decode 0b001000_0010_0001_0000_00000000001000 = .ok (.shri 2 1 8) ∧ encode (.shri 2 1 8) = 0x20840008 := by
  decide
theorem test_decode_maski : decode 0b001001_0000_0111_0000_00000011101000 = .ok (.maski 0 7 232) ∧ encode (.maski 0 7 232) = 0x241C00E8 := by
  decide
theorem test_decode_shladd : decode 0b001010_0001_0010_0011_00000000001000 = .ok (.shladd 1 2 3 8) ∧ encode (.shladd 1 2 3 8) = 0x2848C008 := by
  decide
theorem test_decode_bitlen : decode 0b001011_1001_1010_0000_00000000000000 = .ok (.bitlen 9 10) ∧ encode (.bitlen 9 10) = 0x2E680000 := by
  decide
theorem test_decode_cmp : decode 0b001100_0000_1110_1101_00000000000000 = .ok (.cmp 14 13) ∧ encode (.cmp 14 13) = 0x303B4000 := by
  decide
theorem test_decode_montmul : decode 0b010000_0001_0010_0011_01000000000000 = .ok (.montmul 1 2 3 4) ∧ encode (.montmul 1 2 3 4) = 0x4048D000 := by
  decide
theorem test_decode_montrr : decode 0b010001_0101_0000_0000_01000000000000 = .ok (.montrr 5 4) ∧ encode (.montrr 5 4) = 0x45401000 := by
  decide
theorem test_decode_modexp : decode 0b011000_0000_0001_0010_00110000000000 = .ok (.modexp 0 1 2 3) ∧ encode (.modexp 0 1 2 3) = 0x60048C00 := by
  decide
theorem test_decode_modinv : decode 0b011001_0110_0111_0000_10000000000000 = .ok (.modinv 6 7 8) ∧ encode (.modinv 6 7 8) = 0x659C2000 := by
  decide
theorem test_decode_zeroize : decode 0b111111_0000_0000_0000_00000000000000 = .ok (.zeroize) ∧ encode (.zeroize) = 0xFC000000 := by
  decide
theorem test_illegal_zero : decode 0x00000000 = .error .unusedOpcode := by decide
theorem test_illegal_ones : decode 0xFFFFFFFF = .error .mustBeZero := by decide
theorem test_illegal_clr_ra : decode 0x04040000 = .error .mustBeZero := by decide
theorem test_illegal_clr_low : decode 0x04000001 = .error .mustBeZero := by decide
theorem test_illegal_mov_rb : decode 0x08004000 = .error .mustBeZero := by decide
theorem test_illegal_ldi_ra : decode 0x0C040003 = .error .mustBeZero := by decide
theorem test_illegal_shli_rb : decode 0x1C004001 = .error .mustBeZero := by decide
theorem test_illegal_cmp_rd : decode 0x30400000 = .error .mustBeZero := by decide
theorem test_illegal_bitlen_rb : decode 0x2C004000 = .error .mustBeZero := by decide
theorem test_illegal_montmul_low : decode 0x40000001 = .error .mustBeZero := by decide
theorem test_illegal_montrr_ra : decode 0x44040000 = .error .mustBeZero := by decide
theorem test_illegal_modinv_rb : decode 0x64004000 = .error .mustBeZero := by decide
theorem test_illegal_modexp_low : decode 0x60000200 = .error .mustBeZero := by decide
theorem test_illegal_zeroize_low : decode 0xFC000001 = .error .mustBeZero := by decide
theorem test_illegal_op0D : decode 0x34000000 = .error .unusedOpcode := by decide
theorem test_illegal_op17 : decode 0x5C000000 = .error .unusedOpcode := by decide
theorem test_illegal_op3E : decode 0xF8000000 = .error .unusedOpcode := by decide
theorem test_pseudo : encode .nop = 0x08000000 ∧ Instr.montsqr 4 2 4 = .montmul 4 2 2 4 ∧
    Instr.ins 1 2 3 8 = .shladd 1 2 3 8 ∧ encode (.shl1 2 1) = 0x1C840001 := by decide

/-! ### One step of each command (95_test_vectors.md 2.2 to 2.9) -/

theorem test_clr : command (machine 64 [(5, 0x51175CF9D2B4DB3B)]) 0x05400000 (·.reg 5) = some 0 := by decide
theorem test_mov : command (machine 64 [(1, 9), (2, 0x79A30B782F328D83)]) 0x08480000 (·.reg 1) =
    some 0x79A30B782F328D83 := by decide
theorem test_ldi : command (machine 64 [(3, 0xFFFFFFFFFFFFFFFF)]) 0x0CC00003 (·.reg 3) = some 3 := by decide
theorem test_add_fits : command (machine 64 [(1, 9), (2, 0xFFFFFFFFFFFFFFFE), (3, 1)]) 0x1048C000 (·.reg 1) =
    some 0xFFFFFFFFFFFFFFFF := by decide
theorem test_add_overflows : command (machine 64 [(1, 9), (2, 0xFFFFFFFFFFFFFFFF), (3, 1)]) 0x1048C000
    (faultView 1) = some (1, 5, 0x1048C000, 9) := by decide
theorem test_sub_borrows_through : command (machine 96 [(2, 0x10000000000000000), (3, 1)]) 0x1448C000 (·.reg 1) =
    some 0xFFFFFFFFFFFFFFFF := by decide
theorem test_sub_underflows : command (machine 64 [(1, 9), (2, 5), (3, 7)]) 0x1448C000 (faultView 1) =
    some (1, 6, 0x1448C000, 9) := by decide
theorem test_mul_fits : command (machine 64 [(5, 0xFFFFFFFF), (6, 0x100000001)]) 0x19158000 (·.reg 4) =
    some 0xFFFFFFFFFFFFFFFF := by decide
theorem test_mul_overflows : command (machine 64 [(4, 9), (5, 0x100000000), (6, 0x100000000)]) 0x19158000
    (faultView 4) = some (1, 5, 0x19158000, 9) := by decide
theorem test_shli_zero_large_count : command (machine 64 [(1, 0), (2, 9)]) 0x1C843FFF (·.reg 2) = some 0 := by
  decide
theorem test_shli_overflows : command (machine 64 [(1, 1), (2, 9)]) 0x1C840040 (faultView 2) =
    some (1, 5, 0x1C840040, 9) := by decide
theorem test_shri : command (machine 64 [(1, 0xABCD)]) 0x20840004 (·.reg 2) = some 0xABC := by decide
theorem test_shri_all : command (machine 64 [(1, 0xABCD), (2, 9)]) 0x20843FFF (·.reg 2) = some 0 := by decide
theorem test_maski : command (machine 64 [(1, 0xABCD)]) 0x2484000F (·.reg 2) = some 0x2BCD := by decide
theorem test_maski_all : command (machine 64 [(1, 0xABCD)]) 0x24843FFF (·.reg 2) = some 0xABCD := by decide
theorem test_shladd_adds : command (machine 64 [(2, 0xFF), (3, 0x1FF)]) 0x2848C008 (·.reg 1) = some 0x100FF := by
  decide
theorem test_shladd_overflows : command (machine 64 [(1, 9), (2, 0xFFFFFFFF), (3, 0x100000000)]) 0x2848C020
    (faultView 1) = some (1, 5, 0x2848C020, 9) := by decide
theorem test_bitlen : command (machine 64 [(10, 0x100)]) 0x2E680000 (·.reg 9) = some 9 := by decide
theorem test_bitlen_zero : command (machine 64 [(9, 5)]) 0x2E680000 (·.reg 9) = some 0 := by decide
theorem test_cmp_less : command (machine 64 [(2, 0xFFFFFFFF), (3, 0x100000000)]) 0x3008C000 (·.statusWord) =
    some 4 := by decide
theorem test_cmp_equal : command (machine 64 [(2, 7), (3, 7)]) 0x3008C000 (·.statusWord) = some 2 := by decide
theorem test_montmul : command (machine 64 [(2, 100), (3, 200), (4, 241)]) 0x4048D000 (·.reg 1) = some 48 := by
  decide
theorem test_montmul_priority : command (machine 64 [(1, 9), (2, 500), (3, 300), (4, 240)]) 0x4048D000
    (faultView 1) = some (1, 2, 0x4048D000, 9) := by decide
theorem test_montrr : command (machine 64 [(4, 241)]) 0x45401000 (·.reg 5) = some 225 := by decide
theorem test_montrr_even : command (machine 64 [(4, 240), (5, 9)]) 0x45401000 (faultView 5) =
    some (1, 2, 0x45401000, 9) := by decide
theorem test_modexp_onto_modulus : command (machine 64 [(1, 4), (2, 13), (3, 497)]) 0x60C48C00 (·.reg 3) =
    some 445 := by decide
theorem test_modexp_zero_zero : command (machine 64 [(3, 7)]) 0x60048C00 (·.reg 0) = some 1 := by decide
theorem test_modinv : command (machine 64 [(7, 17), (8, 3120)]) 0x659C2000 (·.reg 6) = some 2753 := by decide
theorem test_modinv_none : command (machine 64 [(6, 9), (7, 6), (8, 9)]) 0x659C2000 (faultView 6) =
    some (1, 4, 0x659C2000, 9) := by decide
theorem test_zeroize : command { machine 64 [(3, 0x51175CF9), (15, 1)] with eq := true } 0xFC000000
    (fun t => (t.reg 3, t.reg 15, t.statusWord)) = some (0, 0, 0) := by decide

/-! ### Faults, discard, acknowledgement, reset (95_test_vectors.md 2.10, 2.12) -/

/-- The state after the first two rows of 95_test_vectors.md 2.10. -/
def faulted : State :=
  { machine 64 [(1, 9), (2, 0xFFFFFFFFFFFFFFFF), (3, 1)] with
    err := true, lt := true, cause := .overflow, errcmd := 0x1048C000 }

theorem test_discard_legal : command faulted 0x0C400005 (faultView 1) = some (5, 5, 0x1048C000, 9) := by decide
theorem test_discard_illegal : command faulted 0x00000000 (faultView 1) = some (5, 5, 0x1048C000, 9) := by decide
/-- OperandRange is code 3 (60_exceptions.md R171). -/
theorem test_operand_range_recorded : command (machine 64 [(1, 9), (2, 241), (3, 200), (4, 241)]) 0x4048D000
    (faultView 1) = some (1, 3, 0x4048D000, 9) := by decide
theorem test_illegal_recorded : command State.reset 0x4048D001 (faultView 1) = some (1, 1, 0x4048D001, 0) := by
  decide
theorem test_window_write_while_fault :
    after (step { faulted with pending := [.access (.write 0x8800 4 0x77)] }) (faultView 1) =
      some (5, 5, 0x1048C000, 0x77) := by decide
theorem test_status_bit0_clear : after (step { faulted with pending := [.access (.write 0x0004 4 6)] })
    (faultView 1) = some (5, 5, 0x1048C000, 9) := by decide
theorem test_acknowledge : after (step { faulted with pending := [.access (.write 0x0004 4 1)] })
    (faultView 1) = some (4, 0, 0, 9) := by decide
theorem test_reset_event : after (step { faulted with pending := [.reset] })
    (fun t => (faultView 2 t, t.cfg.K)) = some ((0, 0, 0, 0), 64) := by decide

/-! ### The window (95_test_vectors.md 2.11) -/

theorem test_param : memRead 0x0010 4 (machine 4096 []) = .data 0x01201000 := by decide
theorem test_param_64 : memRead 0x0010 4 (machine 64 []) = .data 0x01200040 := by decide
theorem test_last_limb : memRead 0xF9FC 4 (machine 4096 []) = .data 0 := by decide
theorem test_reserved_limb : memRead 0x8200 4 (machine 4096 []) = .busError := by decide
theorem test_reserved_low : memRead 0x0014 4 (machine 4096 []) = .busError := by decide
theorem test_reserved_high : memRead 0x7FFC 4 (machine 4096 []) = .busError := by decide
theorem test_misaligned : memRead 0x0002 4 (machine 4096 []) = .busError := by decide
theorem test_width : memRead 0x0004 1 (machine 4096 []) = .busError := by decide
theorem test_outside : memRead 0x10000 4 (machine 4096 []) = .busError := by decide
theorem test_limb_order : memRead 0x9804 4 (machine 4096 [(3, 0x79A30B782F328D83)]) = .data 0x79A30B78 := by decide
theorem test_limb_write :
    after (step { machine 4096 [(3, 0x79A30B782F328D83)] with pending := [.access (.write 0x9808 4 1)] })
      (·.reg 3) = some 0x179A30B782F328D83 := by decide
theorem test_bytes_be : toBytesBE 0x9C3B5A7E 4 = [0x9C, 0x3B, 0x5A, 0x7E] := by decide
theorem test_fieldWidths : fieldWidths ⟨4096⟩ 512 = some ⟨256, 232⟩ ∧ fieldWidths ⟨4096⟩ 64 = some ⟨32, 8⟩ := by
  decide
theorem test_no_fieldWidths : fieldWidths ⟨4096⟩ 63 = none ∧ fieldWidths ⟨4096⟩ 48 = none ∧
    fieldWidths ⟨64⟩ 66 = none := by decide
theorem test_nonce : nonceAccepted ⟨32, 8⟩ 0x9C3B5A7E = true ∧ nonceAccepted ⟨32, 8⟩ 0x9C005A7E = false ∧
    nonceAccepted ⟨32, 8⟩ 0x003B5A7E = false := by decide

/-! ### Reference datapaths (41_montgomery.md R115; 42_modexp.md R125; 43_modinv.md R135) -/

theorem test_word_serial_subtracts : monProWordSerial 0xFFFFFFFE 0xFFFFFFFE 0xFFFFFFFF = 1 := by decide
theorem test_modExp_engine : modExpEngine 4 13 497 = 445 ∧ modExpEngine 3 5 16 = 3 := by decide
theorem test_euclid_engine : modInvEngine 17 3120 = some 2753 ∧ modInvEngine 6 9 = none := by decide

/-! ### Witnesses: a state and operands that meet the hypotheses of each statement -/

theorem witness_DecodeOfEncode :
    (Instr.shladd 15 15 15 16383).wellFormed = true := by decide
theorem witness_EncodeOfDecode :
    decode 0x2BFFFFFF = .ok (.shladd 15 15 15 16383) := by decide
theorem witness_DecodeFollowsOpcodeMap :
    (∃ row ∈ opcodeMap, row.selectedBy 0xFC000000 = true) ∧
      ∀ row ∈ opcodeMap, row.selectedBy 0xFC000001 = false := by decide
theorem witness_ClrWritesZero :
    (machine 64 [(2, 2 ^ 64 - 1)]).err = false := by decide
theorem witness_MovCopiesRegister :
    (machine 64 [(2, 2 ^ 64 - 1)]).err = false := by decide
theorem witness_ShriWritesQuotient :
    (machine 64 [(2, 2 ^ 64 - 1)]).err = false ∧ 16383 < 2 ^ 14 := by decide
theorem witness_MaskiKeepsLowBits :
    (machine 64 [(2, 2 ^ 64 - 1)]).err = false ∧ 16383 < 2 ^ 14 := by decide
theorem witness_LdiWritesImmediate :
    (machine 64 [(2, 2 ^ 64 - 1)]).err = false ∧ 16383 < 2 ^ 14 := by decide
theorem witness_BitlenWritesBitLength :
    (machine 64 [(2, 2 ^ 64 - 1)]).err = false := by decide
theorem witness_CmpWritesBothFlags :
    (machine 64 [(2, 2 ^ 64 - 1)]).err = false := by decide
theorem witness_AddWritesExactSum :
    (machine 64 [(2, 2 ^ 64 - 2), (3, 1)]).err = false ∧
      (machine 64 [(2, 2 ^ 64 - 2), (3, 1)]).reg 2 + (machine 64 [(2, 2 ^ 64 - 2), (3, 1)]).reg 3 < 2 ^ 64 ∧
      2 ^ 64 ≤ (machine 64 [(2, 2 ^ 64 - 1), (3, 1)]).reg 2 + (machine 64 [(2, 2 ^ 64 - 1), (3, 1)]).reg 3 := by decide
theorem witness_SubWritesExactDifference :
    (machine 64 [(2, 7), (3, 7)]).err = false ∧
      (machine 64 [(2, 7), (3, 7)]).reg 2 = (machine 64 [(2, 7), (3, 7)]).reg 3 + 0 ∧
      (machine 64 [(2, 6), (3, 7)]).reg 2 < (machine 64 [(2, 6), (3, 7)]).reg 3 := by decide
theorem witness_MulWritesExactProduct :
    (machine 64 [(5, 2 ^ 32 - 1), (6, 2 ^ 32 + 1)]).err = false ∧
      (machine 64 [(5, 2 ^ 32 - 1), (6, 2 ^ 32 + 1)]).reg 5 * (machine 64 [(5, 2 ^ 32 - 1), (6, 2 ^ 32 + 1)]).reg 6 < 2 ^ 64 ∧
      2 ^ 64 ≤ (machine 64 [(5, 2 ^ 32), (6, 2 ^ 32)]).reg 5 * (machine 64 [(5, 2 ^ 32), (6, 2 ^ 32)]).reg 6 ∧
      bitLength ((machine 64 [(5, 2 ^ 32 - 1), (6, 2 ^ 32 - 1)]).reg 5) +
        bitLength ((machine 64 [(5, 2 ^ 32 - 1), (6, 2 ^ 32 - 1)]).reg 6) ≤ 64 := by decide
theorem witness_ShliWritesExactShift :
    (machine 64 [(1, 1)]).err = false ∧ 63 < 2 ^ 14 ∧ bitLength ((machine 64 [(1, 1)]).reg 1) + 63 ≤ 64 ∧
      (machine 64 [(1, 1)]).reg 1 ≠ 0 ∧ 64 < bitLength ((machine 64 [(1, 1)]).reg 1) + 64 ∧
      (machine 64 []).reg 1 = 0 := by decide
theorem witness_ShladdWritesExactSum :
    (machine 64 [(2, 2 ^ 32 - 1), (3, 2 ^ 32 - 1)]).err = false ∧ 32 < 2 ^ 14 ∧
      (machine 64 [(2, 2 ^ 32 - 1), (3, 2 ^ 32 - 1)]).reg 2 * 2 ^ 32 +
        (machine 64 [(2, 2 ^ 32 - 1), (3, 2 ^ 32 - 1)]).reg 3 < 2 ^ 64 ∧
      (machine 64 [(2, 2 ^ 32 - 1), (3, 2 ^ 32 - 1)]).reg 3 < 2 ^ 32 ∧
      2 ^ 64 ≤ (machine 64 [(2, 2 ^ 32 - 1), (3, 2 ^ 32)]).reg 2 * 2 ^ 32 +
        (machine 64 [(2, 2 ^ 32 - 1), (3, 2 ^ 32)]).reg 3 := by decide
theorem witness_MontmulWritesMontgomeryProduct :
    (machine 64 [(2, 240), (3, 240), (4, 241)]).err = false ∧
      (machine 64 [(2, 240), (3, 240), (4, 241)]).reg 4 % 2 = 1 ∧
      (machine 64 [(2, 240), (3, 240), (4, 241)]).reg 2 < (machine 64 [(2, 240), (3, 240), (4, 241)]).reg 4 ∧
      (machine 64 [(2, 240), (3, 240), (4, 241)]).reg 3 < (machine 64 [(2, 240), (3, 240), (4, 241)]).reg 4 ∧
      (machine 64 [(2, 241), (4, 241)]).reg 4 ≤ (machine 64 [(2, 241), (4, 241)]).reg 2 ∧
      (machine 64 [(4, 240)]).reg 4 % 2 = 0 ∧ (machine 64 []).reg 4 = 0 := by decide
theorem witness_MontrrWritesConversionConstant :
    (machine 64 [(4, 1)]).err = false ∧ (machine 64 [(4, 1)]).reg 4 % 2 = 1 ∧
      (machine 64 []).reg 4 = 0 ∧ (machine 64 [(4, 2)]).reg 4 % 2 = 0 := by decide
theorem witness_ModexpWritesPower :
    (machine 64 [(3, 1)]).err = false ∧ (machine 64 [(3, 1)]).reg 3 ≠ 0 ∧ (machine 64 []).reg 3 = 0 := by decide
theorem witness_ModinvWritesInverse :
    (machine 64 [(7, 6), (8, 7)]).err = false ∧ (machine 64 [(7, 6), (8, 7)]).reg 8 ≠ 0 ∧
      Nat.gcd ((machine 64 [(7, 6), (8, 7)]).reg 7) ((machine 64 [(7, 6), (8, 7)]).reg 8) = 1 ∧
      Nat.gcd ((machine 64 [(7, 7), (8, 7)]).reg 7) ((machine 64 [(7, 7), (8, 7)]).reg 8) ≠ 1 ∧
      (machine 64 []).reg 8 = 0 := by decide
theorem witness_ZeroizeReachesResetState :
    (machine 64 [(2, 2 ^ 64 - 1)]).err = false ∧ (machine 64 [(2, 2 ^ 64 - 1)]).Inv ∧
      bits (0xFC000001 : Word).toNat 31 26 = 0x3F ∧ (0xFC000001 : Word) ≠ 0xFC000000 := by
  unfold State.Inv; decide
theorem witness_StepRunsDecodedCommand :
    ((machine 64 []).withCommand 0x1048C000).pending = [.access (.write 0x0000 4 0x1048C000)] ∧
      decode 0x1048C000 = .ok (.add 1 2 3) := by decide
theorem witness_IllegalWordRecordsFault :
    ((machine 64 []).withCommand 0).pending = [.access (.write 0x0000 4 0)] ∧
      (machine 64 []).err = false ∧ decode 0 = .error .unusedOpcode := by decide
theorem witness_CommandsDiscardedWhileFault :
    (faulted.withCommand 0).err = true ∧ (faulted.withCommand 0).pending = [.access (.write 0x0000 4 0)] := by decide
theorem witness_FaultEntryIsPrecise :
    (machine 64 [(2, 5), (3, 7)]).err = false ∧
      exec (.sub 1 2 3) (machine 64 [(2, 5), (3, 7)]) =
        .next ((machine 64 [(2, 5), (3, 7)]).raiseFault .underflow 0x1448C000) := ⟨rfl, rfl⟩
theorem witness_CommandsRaiseOnlyTheirCauses :
    (machine 64 [(8, 0)]).err = false ∧
      exec (.modinv 6 7 8) (machine 64 [(8, 0)]) =
        .next ((machine 64 [(8, 0)]).raiseFault .badModulus 0x659C2000) := ⟨rfl, rfl⟩
theorem witness_CommandsWriteOneRegisterAtMost :
    Instr.add 1 2 3 ≠ .zeroize ∧ (Instr.add 1 2 3).dest? ≠ some 0 ∧
      exec (.add 1 2 3) (machine 64 [(2, 5), (3, 7)]) = .next ((machine 64 [(2, 5), (3, 7)]).setReg 1 12) := ⟨by decide, by decide, rfl⟩
theorem witness_OnlyCmpAndZeroizeWriteFlags :
    (∀ ra rb, Instr.mov 1 2 ≠ .cmp ra rb) ∧ Instr.mov 1 2 ≠ .zeroize ∧
      exec (.mov 1 2) (machine 64 [(2, 5)]) = .next ((machine 64 [(2, 5)]).setReg 1 5) := ⟨by decide, by decide, rfl⟩
theorem witness_CommandsSeeOnlyTheirSources :
    (machine 64 [(2, 5), (9, 1)]).cfg = (machine 64 [(2, 5)]).cfg ∧ (machine 64 [(2, 5), (9, 1)]).err = false ∧
      (machine 64 [(2, 5)]).err = false ∧
      (∀ r ∈ (Instr.mov 1 2).sources, (machine 64 [(2, 5), (9, 1)]).reg r = (machine 64 [(2, 5)]).reg r) ∧
      exec (.mov 1 2) (machine 64 [(2, 5), (9, 1)]) = .next ((machine 64 [(2, 5), (9, 1)]).setReg 1 5) ∧
      exec (.mov 1 2) (machine 64 [(2, 5)]) = .next ((machine 64 [(2, 5)]).setReg 1 5) := by
  refine ⟨rfl, rfl, rfl, by decide, rfl, rfl⟩
theorem witness_StepKeepsEngineInvariant :
    faulted.Inv ∧ step { faulted with pending := [.access (.write 0x0004 4 1)] } =
      .next { faulted with
        err := false, cause := .none, errcmd := 0, pending := [], response := some .done } := by
  refine ⟨?_, rfl⟩
  unfold State.Inv; decide
theorem witness_StepKeepsRecordCoherent :
    faulted.RecordCoherent ∧ step (faulted.withCommand 0) = .next { faulted with response := some .done } := ⟨fun _ => rfl, rfl⟩
theorem witness_StepKeepsWidth :
    step { faulted with pending := [.reset] } = .next (machine 64 []) := rfl
theorem witness_ResetEventYieldsResetState :
    ({ faulted with pending := [.reset] } : State).pending = .reset :: [] := rfl
theorem witness_AddressMapIsTheTable :
    Config.legal ⟨64⟩ = true ∧ Config.legal ⟨16384⟩ = true ∧ 1 < Config.L ⟨64⟩ ∧ Config.L ⟨64⟩ ≤ 2 ∧ 511 < Config.L ⟨16384⟩ ∧
      0x0014 ≤ 0x7FFF ∧ windowTarget ⟨64⟩ 0x0014 4 = none ∧ windowTarget ⟨64⟩ 0x7FFC 4 = none ∧
      windowTarget ⟨64⟩ 0xF804 4 = some (.limb 15 1) ∧ windowTarget ⟨64⟩ 0xF808 4 = none := by decide
theorem witness_BusErrorExactly :
    (machine 64 []).cfg.legal = true ∧ (memWrite 0x8008 4 1 (machine 64 [])).2 = .busError ∧
      (memWrite 0x8004 4 1 (machine 64 [])).2 = .done := by decide
theorem witness_StepRefusesBusError :
    ({ machine 64 [] with pending := [.access (.read 0x0014 4)] } : State).pending = .access (.read 0x0014 4) :: [] ∧
      (hostAccess (.read 0x0014 4) (machine 64 [])).2 = .busError := by decide
theorem witness_ReadsHaveNoSideEffect :
    ({ machine 64 [] with pending := [.access (.read 0x0010 4)] } : State).pending = .access (.read 0x0010 4) :: [] ∧
      windowTarget (machine 64 []).cfg 0x0010 4 = some .param := by decide
theorem witness_LimbWriteReplacesOneLimb :
    (machine 64 []).cfg.legal = true ∧ 1 < (machine 64 []).cfg.L ∧ (0 : Nat) ≠ 1 ∧
      ({ machine 64 [] with pending := [.access (.write 0xF804 4 7)] } : State).pending =
        .access (.write (0x8000 + 0x800 * (15 : RegId) + 4 * 1) 4 7) :: [] := by decide
theorem witness_LimbsMakeTheValue :
    (machine 64 [(3, 2 ^ 64 - 1)]).Inv := by
  unfold State.Inv; decide
theorem witness_ByteViewIsLittleEndian :
    (machine 64 [(3, 0x2F328D83)]).cfg.legal = true ∧ 7 < 4 * (machine 64 []).cfg.L ∧
      byteView 0x9801 (machine 64 [(3, 0x2F328D83)]) = some 0x8D := by decide
theorem witness_StatusReadsAndAcknowledges :
    ({ faulted with pending := [.access (.write 0x0004 4 1)] } : State).pending = .access (.write 0x0004 4 1) :: [] ∧
      (1 : Word).toNat % 2 = 1 ∧ (6 : Word).toNat % 2 = 0 := by decide
theorem witness_ReadOnlyRegistersIgnoreWrites :
    ({ faulted with pending := [.access (.write 0x0008 4 7)] } : State).pending = .access (.write 0x0008 4 7) :: [] ∧
      ({ faulted with pending := [.access (.write 0x0010 4 7)] } : State).pending = .access (.write 0x0010 4 7) :: [] ∧
      0x0010 ∈ [0x0008, 0x000C, 0x0010] ∧ faulted.cause = .overflow ∧
      (machine 16384 []).cfg.legal = true ∧ (machine 64 []).cfg.legal = true := by decide
theorem witness_MontgomeryRadixBracketsModulus :
    1 ≤ 1 ∧ 1 % 2 = 1 ∧ limbCount 1 = 1 ∧ limbCount (2 ^ 32 - 1) = 1 ∧ limbCount (2 ^ 32) = 2 := by decide
theorem witness_MonProIsTheMontgomeryProduct :
    241 % 2 = 1 ∧ 48 < 241 ∧ 48 * radix 241 ≡ 100 * 200 [MOD 241] := by decide
theorem witness_WordSerialComputesMonPro :
    0xFFFFFFFF % 2 = 1 ∧ 0xFFFFFFFE < 0xFFFFFFFF := by decide
theorem witness_RestoringDivisionIsCorrect :
    1 ≤ 1 ∧ divRem 3120 17 = (183, 9) := by decide
theorem witness_ModExpEngineComputesPower :
    1 ≤ 1 ∧ modExpEngine 0 0 1 = 0 ∧ modExpEngine 7 100 1000 = 1 := by decide
theorem witness_EuclidEngineComputesInverse :
    1 ≤ 1 ∧ modInvEngine 5 1 = some 0 ∧ modInvEngine 10 7 = some 5 := by decide
theorem witness_BytesBigEndianRoundTrip :
    0xFFFF < 2 ^ (8 * 2) ∧ 1 < 2 := by decide
theorem witness_MontgomerySequenceMultiplies :
    (machine 64 [(2, 100), (3, 200), (4, 241)]).err = false ∧
      (machine 64 [(2, 100), (3, 200), (4, 241)]).reg 4 % 2 = 1 ∧
      (machine 64 [(2, 100), (3, 200), (4, 241)]).reg 2 < (machine 64 [(2, 100), (3, 200), (4, 241)]).reg 4 ∧
      (machine 64 [(2, 100), (3, 200), (4, 241)]).reg 3 < (machine 64 [(2, 100), (3, 200), (4, 241)]).reg 4 ∧
      1 < (machine 64 [(2, 100), (3, 200), (4, 241)]).reg 4 ∧ (machine 64 [(4, 1)]).reg 4 = 1 := by decide
theorem witness_KeyGenerationMakesKeyOrFails :
    (machine 64 [(1, 5), (2, 11)]).err = false ∧ (machine 64 [(1, 5), (2, 11)]).reg 1 = 5 ∧
      (machine 64 [(1, 5), (2, 11)]).reg 2 = 11 ∧ 5 * 11 < 2 ^ (machine 64 [(1, 5), (2, 11)]).cfg.K ∧
      Nat.gcd 3 ((5 - 1) * (11 - 1)) = 1 ∧ Nat.gcd 3 ((7 - 1) * (11 - 1)) ≠ 1 ∧
      (machine 64 [(1, 7), (2, 11)]).reg 1 = 7 ∧ (machine 64 [(1, 1), (2, 11)]).reg 1 = 1 ∧
      1 * 11 < 2 ^ (machine 64 [(1, 1), (2, 11)]).cfg.K ∧
      (machine 64 [(2, 11)]).reg 1 = 0 ∧ (machine 64 [(1, 5)]).reg 1 = 5 ∧ (machine 64 [(1, 5)]).reg 2 = 0 ∧
      (machine 64 [(1, 2 ^ 32), (2, 2 ^ 32)]).reg 1 = 2 ^ 32 ∧
      2 ^ (machine 64 [(1, 2 ^ 32), (2, 2 ^ 32)]).cfg.K ≤ 2 ^ 32 * 2 ^ 32 := by decide
theorem witness_PadSequenceBuildsPaddedValue :
    (machine 64 [(1, 0x9C3B5A7E), (2, 0xFF)]).err = false ∧
      64 % 2 = 0 ∧ 48 < 64 ∧ 64 ≤ (machine 64 [(1, 0x9C3B5A7E), (2, 0xFF)]).cfg.K ∧
      (machine 64 [(1, 0x9C3B5A7E), (2, 0xFF)]).reg 1 < 2 ^ (64 / 2) ∧
      (machine 64 [(1, 0x9C3B5A7E), (2, 0xFF)]).reg 2 < 2 ^ (64 / 2 - 24) ∧
      63 % 2 = 1 ∧ 48 ≤ 48 ∧ (machine 64 []).cfg.K < 66 := by decide
theorem witness_StrictCheckFindsOversizedPlaintext :
    (machine 64 [(2, 0x100)]).err = false ∧ 64 % 2 = 0 ∧ 48 < 64 ∧ 64 ≤ (machine 64 [(2, 0x100)]).cfg.K ∧
      64 / 2 - 24 < bitLength ((machine 64 [(2, 0x100)]).reg 2) ∧
      bitLength ((machine 64 [(1, 0x9C3B5A7E), (2, 0xFF)]).reg 2) ≤ 64 / 2 - 24 ∧
      (machine 64 [(1, 0x9C3B5A7E), (2, 0xFF)]).reg 1 < 2 ^ (64 / 2) ∧ 50 % 2 = 0 ∧
      63 % 2 = 1 ∧ 48 ≤ 48 ∧ (machine 64 []).cfg.K < 66 := by decide
theorem witness_CipherSequencesComputeAndClear :
    (machine 64 [(4, 1)]).err = false ∧ (machine 64 [(4, 1)]).reg 4 ≠ 0 ∧ (machine 64 []).err = false ∧
      (machine 64 []).reg 4 = 0 ∧ 50 % 2 = 0 ∧ 48 < 50 ∧ 64 ≤ (machine 64 [(4, 1)]).cfg.K ∧
      63 % 2 = 1 ∧ 48 ≤ 48 ∧ (machine 64 []).cfg.K < 66 := by decide
theorem witness_DecryptionUndoesEncryption :
    fieldWidths ⟨64⟩ 50 = some ⟨25, 1⟩ ∧ Nat.Prime 33554393 ∧ Nat.Prime 33554291 ∧ (33554393 : Nat) ≠ 33554291 ∧
      3 * 750595866627787 ≡ 1 [MOD (33554393 - 1) * (33554291 - 1)] ∧
      paddedValue ⟨25, 1⟩ (2 ^ 25 - 1) 1 < 33554393 * 33554291 ∧ 2 ^ (50 - 2) ≤ 33554393 * 33554291 ∧
      2 ^ 25 - 1 < 2 ^ 25 ∧ 1 < 2 ^ 1 := by
  refine ⟨by decide, by norm_num, by norm_num, by decide, by decide, by decide, by decide, by decide, by decide⟩

end Sys2Proof.Tests
end

section
/-! PROOFS. Big-endian bytes (00_scope.md R14). Both directions of the round trip follow the last byte: it is the
remainder modulo 256, and the bytes before it are those of the quotient. -/

namespace Sys2Proof.Machine

/-- Byte `k` of a value, counted from the least significant one. -/
theorem bits_byte (v k : Nat) : bits v (8 * k + 7) (8 * k) = v / 2 ^ (8 * k) % 2 ^ 8 := by
  rw [bits_eq]
  congr 2
  omega

@[simp] theorem toBytesBE_length (v n : Nat) : (toBytesBE v n).length = n := by
  simp [toBytesBE]

@[simp] theorem toBytesBE_zero (v : Nat) : toBytesBE v 0 = [] := rfl

theorem toBytesBE_getElem? (v : Nat) {n i : Nat} (h : i < n) :
    (toBytesBE v n)[i]? = some (BitVec.ofNat 8 (v / 2 ^ (8 * (n - 1 - i)) % 2 ^ 8)) := by
  simp [toBytesBE, h, bits_byte]

theorem toBytesBE_succ (v n : Nat) :
    toBytesBE v (n + 1) = toBytesBE (v / 256) n ++ [BitVec.ofNat 8 (v % 256)] := by
  have shiftByte (i : Nat) (hi : i < n) :
      v / 2 ^ (8 * (n + 1 - 1 - i)) = v / 256 / 2 ^ (8 * (n - 1 - i)) := by
    have hk : 8 * (n + 1 - 1 - i) = 8 + 8 * (n - 1 - i) := by omega
    rw [hk, pow_add, ← Nat.div_div_eq_div_mul]
    norm_num
  simp only [toBytesBE, bits_byte, List.range_succ, List.map_append]
  congr 1
  · refine List.map_congr_left fun i hi => ?_
    rw [shiftByte i (List.mem_range.mp hi)]
  · simp

@[simp] theorem fromBytesBE_nil : fromBytesBE [] = 0 := rfl

@[simp] theorem fromBytesBE_concat (b : List (BitVec 8)) (x : BitVec 8) :
    fromBytesBE (b ++ [x]) = fromBytesBE b * 256 + x.toNat := by
  simp [fromBytesBE]

/-- Of any value, also one too large for `n` bytes (log 18), the bytes hold the remainder. -/
theorem fromBytesBE_toBytesBE (v n : Nat) : fromBytesBE (toBytesBE v n) = v % 256 ^ n := by
  induction n generalizing v with
  | zero => simp [Nat.mod_one]
  | succ n ih =>
    rw [toBytesBE_succ, fromBytesBE_concat, ih, pow_succ', Nat.mod_mul]
    simp [Nat.add_comm, Nat.mul_comm]

theorem toBytesBE_fromBytesBE (b : List (BitVec 8)) : toBytesBE (fromBytesBE b) b.length = b := by
  induction b using List.reverseRecOn with
  | nil => rfl
  | append_singleton b x ih =>
    have hx : x.toNat < 256 := x.isLt
    have hquot : (fromBytesBE b * 256 + x.toNat) / 256 = fromBytesBE b := by omega
    have hrem : (fromBytesBE b * 256 + x.toNat) % 256 = x.toNat := by omega
    rw [fromBytesBE_concat, List.length_append, List.length_singleton, toBytesBE_succ, hquot, hrem, ih]
    simp

/-- Settles O54, by induction on the number of bytes, last byte first. -/
theorem bytesBigEndianRoundTrip : Obligations.BytesBigEndianRoundTrip := by
  unfold Obligations.BytesBigEndianRoundTrip
  refine ⟨fun v n hv => ⟨toBytesBE_length v n, ?_, fun i hi => toBytesBE_getElem? v hi⟩, toBytesBE_fromBytesBE⟩
  rw [fromBytesBE_toBytesBE, Nat.mod_eq_of_lt (by simpa [pow_mul] using hv)]

end Sys2Proof.Machine
end

section
/-! PROOFS. What a command does in a ready engine, said once for two runs that agree on the command's sources
(00_scope.md R15): both make the same one change. With `s' = s` it is the inversion of a single run. -/

namespace Sys2Proof.Machine

/-- `t` and `t'` come from `s` and `s'` by one and the same change, of the kinds that the command `i` may make: the
destination written, a fault of its own recorded, the flags written by CMP, everything cleared by ZEROIZE. -/
inductive SameEffect (i : Instr) (s s' : State) : State → State → Prop
  | write (rd : RegId) (v : Nat) (hd : i.dest? = some rd) :
    SameEffect i s s' (s.setReg rd v) (s'.setReg rd v)
  | fault (c : Cause) (hc : mayRaise i c = true) :
    SameEffect i s s' (s.raiseFault c (encode i)) (s'.raiseFault c (encode i))
  | compare (e l : Bool) (hi : ∃ ra rb, i = .cmp ra rb) :
    SameEffect i s s' (s.setCompare e l) (s'.setCompare e l)
  | clear (hi : i = .zeroize) : SameEffect i s s' s.zeroAll s'.zeroAll

theorem SameEffect.ite {i : Instr} {s s' t t' u u' : State} {p : Prop} [Decidable p]
    (ht : SameEffect i s s' t t') (hu : SameEffect i s s' u u') :
    SameEffect i s s' (if p then t else u) (if p then t' else u') := by
  split
  · exact ht
  · exact hu

/-- The checked write sees the width beside the value. -/
theorem SameEffect.writeResult {i : Instr} {s s' : State} (hcfg : s.cfg = s'.cfg) (rd : RegId) (v : Nat)
    (hd : i.dest? = some rd) (hc : mayRaise i .overflow = true) :
    SameEffect i s s' (s.writeResult rd (encode i) v) (s'.writeResult rd (encode i) v) := by
  have hbound : s.bound = s'.bound := by rw [State.bound, State.bound, hcfg]
  simp only [State.writeResult, hbound]
  exact .ite (.write rd v hd) (.fault .overflow hc)

/-- Two ready engines of one width that agree on a command's sources make the same change. -/
theorem exec_sameEffect (i : Instr) (s s' : State) (hcfg : s.cfg = s'.cfg) (hs : s.err = false)
    (hs' : s'.err = false) (hsrc : ∀ r ∈ i.sources, s.reg r = s'.reg r) :
    ∃ t t', exec i s = .next t ∧ exec i s' = .next t' ∧ SameEffect i s s' t t' := by
  cases i <;>
    refine ⟨_, _, runCommand_of_ready _ _ hs, runCommand_of_ready _ _ hs', ?_⟩ <;>
    simp only [Instr.sources, List.mem_cons, List.not_mem_nil, or_false, forall_eq_or_imp, forall_eq] at hsrc
  case clr rd => exact .write rd 0 rfl
  case ldi rd imm => exact .write rd imm rfl
  case mov rd ra => rw [hsrc]; exact .write rd _ rfl
  case shri rd ra imm => rw [hsrc]; exact .write rd _ rfl
  case maski rd ra imm => rw [hsrc]; exact .write rd _ rfl
  case bitlen rd ra => rw [hsrc]; exact .write rd _ rfl
  case shli rd ra imm => rw [hsrc]; exact .writeResult hcfg rd _ rfl rfl
  case add rd ra rb =>
    obtain ⟨ha, hb⟩ := hsrc
    rw [ha, hb]; exact .writeResult hcfg rd _ rfl rfl
  case mul rd ra rb =>
    obtain ⟨ha, hb⟩ := hsrc
    rw [ha, hb]; exact .writeResult hcfg rd _ rfl rfl
  case shladd rd ra rb imm =>
    obtain ⟨ha, hb⟩ := hsrc
    rw [ha, hb]; exact .writeResult hcfg rd _ rfl rfl
  case sub rd ra rb =>
    obtain ⟨ha, hb⟩ := hsrc
    rw [ha, hb]; exact .ite (.fault .underflow rfl) (.write rd _ rfl)
  case cmp ra rb =>
    obtain ⟨ha, hb⟩ := hsrc
    rw [ha, hb]; exact .compare _ _ ⟨ra, rb, rfl⟩
  case montmul rd ra rb rm =>
    obtain ⟨ha, hb, hm⟩ := hsrc
    rw [ha, hb, hm]
    exact .ite (.fault .badModulus rfl) (.ite (.fault .operandRange rfl) (.write rd _ rfl))
  case montrr rd rm => rw [hsrc]; exact .ite (.fault .badModulus rfl) (.write rd _ rfl)
  case modexp rd ra rb rm =>
    obtain ⟨ha, hb, hm⟩ := hsrc
    rw [ha, hb, hm]; exact .ite (.fault .badModulus rfl) (.write rd _ rfl)
  case modinv rd ra rm =>
    obtain ⟨ha, hm⟩ := hsrc
    rw [ha, hm]
    exact .ite (.fault .badModulus rfl) (.ite (.fault .noInverse rfl) (.write rd _ rfl))
  case zeroize => exact .clear rfl

/-- Settles O31: the two runs make the same change (`exec_sameEffect`), and each kind of change leaves equal what is
compared. -/
theorem commandsSeeOnlyTheirSources : Obligations.CommandsSeeOnlyTheirSources := by
  unfold Obligations.CommandsSeeOnlyTheirSources
  intro i s s' t t' hcfg hs hs' hsrc ht ht'
  obtain ⟨u, u', hu, hu', heffect⟩ := exec_sameEffect i s s' hcfg hs hs' hsrc
  cases hu.symm.trans ht
  cases hu'.symm.trans ht'
  cases heffect with
  | write rd v hd =>
    refine ⟨by simp [hs, hs'], by simp [hs], fun _ r hr => ?_, fun ra rb hi => ?_⟩
    · cases hd.symm.trans hr
      simp
    · subst hi
      cases hd
  | fault c hc =>
    refine ⟨rfl, by simp, by simp, fun ra rb hi => ?_⟩
    subst hi
    cases hc
  | compare e l hi =>
    obtain ⟨ra, rb, rfl⟩ := hi
    simp [hs, hs', Instr.dest?]
  | clear hi =>
    subst hi
    simp [hs, hs']

end Sys2Proof.Machine
end

section
/-! PROOFS. What a word that decodes says of its command (30_encoding.md R61 to R66, R69): the command packs back into the
word it was read from, so a fault that records the encoding records that word (log 6), and its immediate fits. -/

namespace Sys2Proof

open Machine (bits_eq)

theorem whenZero_eq_ok {z : Nat} {i j : Instr} : whenZero z i = .ok j ↔ z = 0 ∧ i = j := by
  unfold whenZero
  split <;> simp [*]

theorem regField_val (v lo : Nat) : (regField v lo).val = v / 2 ^ lo % 16 := by
  have hwidth : lo + 3 + 1 - lo = 4 := by omega
  simp [regField, bits_eq, hwidth]

/-- A word is packed from its opcode and the fields below it. -/
theorem packWord_eq {w : Word} {op rd ra rb low : Nat} (hop : bits w.toNat 31 26 = op)
    (hfields : rd * 2 ^ 22 + ra * 2 ^ 18 + rb * 2 ^ 14 + low = bits w.toNat 25 0) :
    packWord op rd ra rb low = w := by
  have hw := w.isLt
  rw [bits_eq] at hop hfields
  apply BitVec.eq_of_toNat_eq
  rw [packWord, BitVec.toNat_ofNat]
  omega

/-- A word that decodes is the one word of its command (92_eei_decisions.md D8): in each row of the opcode map the fields
used and the bits that must be zero make up the word below the opcode. -/
theorem encode_of_decode {w : Word} {i : Instr} (h : decode w = .ok i) : encode i = w := by
  simp only [decode] at h
  split at h <;> rename_i hop
  case h_10 => -- SHLADD, which uses every field
    cases h
    exact packWord_eq hop (by simp only [regField_val, bits_eq]; omega)
  case h_17 => -- ZEROIZE, which uses none
    obtain ⟨hzero, rfl⟩ := whenZero_eq_ok.mp h
    exact packWord_eq hop (by simp [hzero])
  case h_18 => cases h
  all_goals
    obtain ⟨hzero, rfl⟩ := whenZero_eq_ok.mp h
    refine packWord_eq hop ?_
    simp only [regField_val, bits_eq] at hzero ⊢
    omega

@[simp] theorem immFits_bits (v : Nat) : immFits (bits v 13 0) = true := by
  simp only [immFits, bits_eq, decide_eq_true_eq]
  omega

/-- The immediate of a decoded command comes from a 14-bit field (30_encoding.md R61, R63). -/
theorem wellFormed_of_decode {w : Word} {i : Instr} (h : decode w = .ok i) : i.wellFormed = true := by
  simp only [decode] at h
  split at h
  case h_10 =>
    cases h
    exact immFits_bits _
  case h_18 => cases h
  all_goals
    obtain ⟨-, rfl⟩ := whenZero_eq_ok.mp h
    simp [Instr.wellFormed]

end Sys2Proof
end

section
/-! PROOFS. What a command leaves alone, from the one change it makes (`SameEffect` with `s' = s`): the flags (10_state.md
R24), and the host's side, which it does not see either (R32, R34). -/

namespace Sys2Proof.Machine

/-- A command is discarded while a fault is on record (60_exceptions.md R176; log 8). -/
theorem exec_of_err (i : Instr) {s : State} (h : s.err = true) : exec i s = .next s := by
  cases i <;> exact runCommand_of_err _ _ h

/-- A single run of a command: discarded, or one change of its kind. -/
theorem exec_cases {i : Instr} {s t : State} (h : exec i s = .next t) :
    (s.err = true ∧ t = s) ∨ (s.err = false ∧ SameEffect i s s t t) := by
  cases hs : s.err with
  | true =>
    cases (exec_of_err i hs).symm.trans h
    exact .inl ⟨rfl, rfl⟩
  | false =>
    obtain ⟨u, v, hu, hv, heffect⟩ := exec_sameEffect i s s rfl hs hs fun _ _ => rfl
    cases hu.symm.trans h
    cases hv.symm.trans h
    exact .inr ⟨rfl, heffect⟩

theorem exec_keeps_cfg {i : Instr} {s t : State} (h : exec i s = .next t) : t.cfg = s.cfg := by
  obtain ⟨-, rfl⟩ | ⟨-, heffect⟩ := exec_cases h
  · rfl
  · cases heffect <;> rfl

/-- Settles O30: of the changes that a command can make, only the two that belong to CMP and ZEROIZE touch a flag. -/
theorem onlyCmpAndZeroizeWriteFlags : Obligations.OnlyCmpAndZeroizeWriteFlags := by
  unfold Obligations.OnlyCmpAndZeroizeWriteFlags
  intro i s t hcmp hzeroize h
  obtain ⟨-, rfl⟩ | ⟨-, heffect⟩ := exec_cases h
  · exact ⟨rfl, rfl⟩
  · cases heffect with
    | write | fault => exact ⟨rfl, rfl⟩
    | compare e l hi =>
      obtain ⟨ra, rb, hi⟩ := hi
      exact absurd hi (hcmp ra rb)
    | clear hi => exact absurd hi hzeroize

/-- Settles O32: the states with and without the host's fields replaced agree on every register, so the command makes the
same change in both (`exec_sameEffect`), and no change is of a field of the host. -/
theorem commandsIgnoreTheHost : Obligations.CommandsIgnoreTheHost := by
  unfold Obligations.CommandsIgnoreTheHost
  intro i s p r
  obtain hs | hs := s.err.eq_false_or_eq_true
  · rw [exec_of_err i hs]
    exact exec_of_err i hs
  · obtain ⟨t, t', ht, ht', heffect⟩ :=
      exec_sameEffect i s { s with pending := p, response := r } rfl hs hs fun _ _ => rfl
    rw [ht, ht', mapNext_next]
    cases heffect <;> rfl

end Sys2Proof.Machine
end

section
/-! PROOFS. An invariant of the machine's step is proved once for every way in which a step can change the state
(10_state.md R20; 20_memory.md R42; 70_reset_and_hazards.md R190). -/

namespace Sys2Proof.Machine

/-- `P` survives everything that a step does: the host's fields moved on, a reset, an acknowledgement, an illegal word, a
decoded command, and the write of a limb that exists. -/
structure StepClosed (P : State → Prop) : Prop where
  take : ∀ s rest, P s → P (s.take rest)
  respond : ∀ s a, P s → P (s.respond a)
  reset : ∀ s, P s → P s.resetEngine
  acknowledge : ∀ s, P s → P s.acknowledge
  illegal : ∀ s w e, decode w = .error e → P s → P (s.raiseFault .illegalCommand w)
  command : ∀ s t w i, decode w = .ok i → exec i s = .next t → P s → P t
  limb : ∀ s i j (v : Word), j < s.cfg.L → P s → P (s.setReg i (replaceLimb (s.reg i) j v.toNat))

/-- The window shows a limb only where the register has one (20_memory.md R44). -/
theorem lt_L_of_windowTarget {c : Config} {addr width : Nat} {i : RegId} {j : Nat}
    (h : windowTarget c addr width = some (.limb i j)) : j < c.L := by
  simp only [windowTarget] at h
  split_ifs at h <;> cases h
  assumption

theorem StepClosed.of_commandWrite {P : State → Prop} (hP : StepClosed P) {s t : State} {w : Word}
    (h : commandWrite w s = .next t) (hs : P s) : P t := by
  simp only [commandWrite] at h
  split at h
  · cases h
    exact hs
  · cases hw : decode w with
    | error e =>
      simp only [hw] at h
      cases h
      exact hP.illegal s w e hw hs
    | ok i =>
      simp only [hw] at h
      exact hP.command s t w i hw h hs

theorem StepClosed.of_writeTarget {P : State → Prop} (hP : StepClosed P) {s t : State} {v : Word} {addr : Nat}
    {target : Target} (htarget : windowTarget s.cfg addr 4 = some target)
    (h : writeTarget s v target = .next t) (hs : P s) : P t := by
  cases target with
  | cmd => exact hP.of_commandWrite h hs
  | status =>
    cases h
    rw [statusWrite]
    split
    · exact hP.acknowledge s hs
    · exact hs
  | cause | errcmd | param =>
    cases h
    exact hs
  | limb i j =>
    cases h
    exact hP.limb s i j v (lt_L_of_windowTarget htarget) hs

theorem StepClosed.of_step {P : State → Prop} (hP : StepClosed P) {s t : State} (h : step s = .next t) (hs : P s) :
    P t := by
  obtain ⟨-, rfl⟩ | ⟨rest, -, rfl⟩ | ⟨a, rest, u, -, hb, hu, rfl⟩ := step_cases s t h
  · exact hs
  · exact hP.reset _ (hP.take s rest hs)
  · refine hP.respond u _ ?_
    obtain ⟨-, -, -, rfl⟩ | ⟨addr, v, target, -, htarget, hwrite⟩ := hostAccess_cases a _ u hu hb
    · exact hP.take s rest hs
    · exact hP.of_writeTarget htarget hwrite (hP.take s rest hs)

theorem stepClosed_cfg (c : Config) : StepClosed fun s => s.cfg = c where
  take _ _ hs := hs
  respond _ _ hs := hs
  reset _ hs := hs
  acknowledge _ hs := hs
  illegal _ _ _ _ hs := hs
  command _ _ _ _ _ h hs := (exec_keeps_cfg h).trans hs
  limb _ _ _ _ _ hs := hs

/-- Settles O36: PARAM reads the configuration alone, and nothing a step does writes it. -/
theorem stepKeepsWidth : Obligations.StepKeepsWidth := by
  unfold Obligations.StepKeepsWidth
  intro s t h
  have hcfg : t.cfg = s.cfg := (stepClosed_cfg s.cfg).of_step h rfl
  exact ⟨hcfg, by rw [State.paramWord, State.paramWord, hcfg]⟩

/-! ### The fault record (10_state.md R28; 60_exceptions.md R171, R175) -/

theorem recordCoherent_of_ready {s : State} (h : s.err = false) : s.RecordCoherent := by
  simp [State.RecordCoherent, h]

theorem recordCoherent_illegal {w : Word} {e : IllegalWord} (s : State) (hw : decode w = .error e) :
    (s.raiseFault .illegalCommand w).RecordCoherent := by
  simp [State.RecordCoherent, hw]

theorem recordCoherent_raiseFault {w : Word} {i : Instr} {c : Cause} (s : State) (hw : decode w = .ok i)
    (hc : mayRaise i c = true) : (s.raiseFault c (encode i)).RecordCoherent := by
  simp [State.RecordCoherent, encode_of_decode hw, hw, hc]

/-- A command on no record leaves none or one of its own. -/
theorem exec_keeps_recordCoherent {w : Word} {i : Instr} {s t : State} (hw : decode w = .ok i)
    (h : exec i s = .next t) (hs : s.RecordCoherent) : t.RecordCoherent := by
  obtain ⟨-, rfl⟩ | ⟨hready, heffect⟩ := exec_cases h
  · exact hs
  · cases heffect with
    | write | compare | clear => exact recordCoherent_of_ready hready
    | fault c hc => exact recordCoherent_raiseFault s hw hc

theorem stepClosed_recordCoherent : StepClosed State.RecordCoherent where
  take _ _ hs := hs
  respond _ _ hs := hs
  reset _ _ := recordCoherent_of_ready rfl
  acknowledge _ _ := recordCoherent_of_ready rfl
  illegal s _ _ hw _ := recordCoherent_illegal s hw
  command _ _ _ _ hw h hs := exec_keeps_recordCoherent hw h hs
  limb _ _ _ _ _ hs := hs

/-- Settles O35, by the ways a step can change the state (`StepClosed`). -/
theorem stepKeepsRecordCoherent : Obligations.StepKeepsRecordCoherent := by
  unfold Obligations.StepKeepsRecordCoherent
  exact fun s t hs h => stepClosed_recordCoherent.of_step h hs

end Sys2Proof.Machine
end

section
/-! PROOFS. What a command writes fits in a register (10_state.md R22; log 7): bounds of the values that the rules compute,
from bounds of the operands. -/

namespace Sys2Proof.Machine

theorem monPro_lt {N : Nat} (a b : Nat) (hN : 0 < N) : monPro a b N < N := Nat.mod_lt _ hN

theorem montgomeryRR_lt {N : Nat} (hN : 0 < N) : montgomeryRR N < N := Nat.mod_lt _ hN

theorem modExpLoop_lt {N : Nat} (b e n acc : Nat) (hN : 0 < N) (hacc : acc < N) : modExpLoop b e N n acc < N := by
  induction n generalizing acc with
  | zero => exact hacc
  | succ n ih =>
    refine ih _ ?_
    split <;> exact Nat.mod_lt _ hN

theorem modExp_lt {N : Nat} (b e : Nat) (hN : 0 < N) : modExp b e N < N :=
  modExpLoop_lt _ _ _ _ hN (Nat.mod_lt _ hN)

/-- The Bezout coefficient stays below the modulus in size. The two coefficients have opposite signs, `p` and `q` are their
sizes, and `p * r1 + q * r0 = m` at every turn; so `q`, the next one to answer, is below `m` as long as `r0 > 1`. -/
theorem euclidLoop_natAbs_lt {m : Nat} (fuel : Nat) {r0 r1 p q : Nat} (ε : ℤˣ) (hr : r1 < r0) (hp : p < m)
    (hsum : p * r1 + q * r0 = m) : (euclidLoop fuel r0 r1 (ε * p) (-ε * q)).2.natAbs < m := by
  induction fuel generalizing r0 r1 p q ε with
  | zero => simpa [euclidLoop, Int.natAbs_mul] using hp
  | succ fuel ih =>
    simp only [euclidLoop]
    split
    · simpa [Int.natAbs_mul] using hp
    · have hr1 : 0 < r1 := Nat.pos_of_ne_zero ‹_›
      have hq : q < m := by
        have : q * 2 ≤ q * r0 := Nat.mul_le_mul_left q (by omega)
        omega
      have hnext : q * (r0 % r1) + (p + r0 / r1 * q) * r1 = m := by
        linear_combination hsum + q * Nat.div_add_mod r0 r1
      have hcoeff : (ε * p - (r0 / r1 : Nat) * (-ε * q) : ℤ) = -(-ε : ℤˣ) * (p + r0 / r1 * q : Nat) := by
        push_cast
        ring
      rw [hcoeff]
      simpa using ih (-ε) (Nat.mod_lt r0 hr1) hq hnext

/-- The inverse that the engine answers is a residue (43_modinv.md R130). -/
theorem modInvEngine_lt {a m d : Nat} (hm : 0 < m) (h : modInvEngine a m = some d) : d < m := by
  have hcoeff : (euclidLoop m m (a % m) 0 1).2.natAbs < m := by
    simpa using euclidLoop_natAbs_lt m (p := 0) (q := 1) (-1) (Nat.mod_lt a hm) hm (by simp)
  simp only [modInvEngine] at h
  split_ifs at h <;> cases h <;> omega

theorem modInv_lt {m : Nat} (a : Nat) (hm : 0 < m) : modInv a m < m := by
  rw [modInv]
  cases h : modInvEngine a m with
  | none => exact hm
  | some d => exact modInvEngine_lt hm h

/-- The part of the value above limb `j` and the bits below the limb stay where they are. -/
theorem replaceLimb_eq (v j w : Nat) :
    replaceLimb v j w =
      2 ^ (32 * j) * (v / 2 ^ (32 * j) - v / 2 ^ (32 * j) % 2 ^ 32 + w) + v % 2 ^ (32 * j) := by
  rw [replaceLimb, limb_eq, Nat.shiftLeft_eq, Nat.shiftLeft_eq]
  generalize 2 ^ (32 * j) = B
  have hlimb : B * (v / B % 2 ^ 32) ≤ B * (v / B) := Nat.mul_le_mul_left B (Nat.mod_le _ _)
  have hdiv : B * (v / B) + v % B = v := Nat.div_add_mod v B
  rw [Nat.mul_add, Nat.mul_sub, Nat.mul_comm _ B, Nat.mul_comm w B]
  omega

/-- A register of `n` limbs stays one when a limb that exists is replaced (20_memory.md R46). -/
theorem replaceLimb_lt {v j n w : Nat} (hv : v < 2 ^ (32 * n)) (hj : j < n) (hw : w < 2 ^ 32) :
    replaceLimb v j w < 2 ^ (32 * n) := by
  have hpow : 2 ^ (32 * n) = 2 ^ (32 * j) * (2 ^ 32 * 2 ^ (32 * (n - j - 1))) := by
    rw [← pow_add, ← pow_add]
    congr 1
    omega
  rw [hpow] at hv ⊢
  rw [replaceLimb_eq]
  have hlow : v % 2 ^ (32 * j) < 2 ^ (32 * j) := Nat.mod_lt _ (by positivity)
  have hhigh : v / 2 ^ (32 * j) < 2 ^ 32 * 2 ^ (32 * (n - j - 1)) := Nat.div_lt_of_lt_mul hv
  have htop : v / 2 ^ (32 * j) - v / 2 ^ (32 * j) % 2 ^ 32 + w + 1 ≤ 2 ^ 32 * 2 ^ (32 * (n - j - 1)) := by
    generalize v / 2 ^ (32 * j) = u at hhigh ⊢
    omega
  nlinarith [Nat.mul_le_mul_left (2 ^ (32 * j)) htop]

end Sys2Proof.Machine
end

section
/-! PROOFS. The engine's invariant (10_state.md R22, R26, R27, R28): first what each operation over the state asks for to
keep it, then each command, then the step. -/

namespace Sys2Proof.Machine

theorem Config.legal_iff (c : Config) : c.legal = true ↔ c.K % 32 = 0 ∧ 64 ≤ c.K ∧ c.K ≤ 16384 := by
  simp [Config.legal, and_assoc]

theorem State.Inv.legal {s : State} (hs : s.Inv) : s.cfg.legal = true := hs.1

theorem State.Inv.reg_lt {s : State} (hs : s.Inv) (r : RegId) : s.reg r < 2 ^ s.cfg.K := by
  obtain ⟨-, hregs, -⟩ := hs
  exact hregs r

/-- A legal width is a whole number of limbs (00_scope.md R7). -/
theorem State.Inv.limbs_eq {s : State} (hs : s.Inv) : 32 * s.cfg.L = s.cfg.K := by
  obtain ⟨hwidth, -, -⟩ := (Config.legal_iff _).mp hs.legal
  rw [Config.L]
  omega

/-- Every immediate fits: the least legal width is 64. -/
theorem State.Inv.imm_lt {s : State} (hs : s.Inv) {imm : Nat} (h : imm < 2 ^ 14) : imm < 2 ^ s.cfg.K := by
  obtain ⟨-, hmin, -⟩ := (Config.legal_iff _).mp hs.legal
  exact h.trans_le (Nat.pow_le_pow_right two_pos (by omega))

theorem State.Inv.setReg {s : State} (hs : s.Inv) (rd : RegId) {v : Nat} (hv : v < 2 ^ s.cfg.K) :
    (s.setReg rd v).Inv := by
  obtain ⟨hlegal, hregs, hcause, hword, hflags⟩ := hs
  refine ⟨hlegal, fun r => ?_, hcause, hword, hflags⟩
  rw [State.reg_setReg]
  split
  · exact hv
  · exact hregs r

theorem State.Inv.raiseFault {s : State} (hs : s.Inv) {c : Cause} (w : Word) (hc : c ≠ .none) :
    (s.raiseFault c w).Inv := by
  obtain ⟨hlegal, hregs, -, -, hflags⟩ := hs
  exact ⟨hlegal, hregs, by simp [hc], by simp, hflags⟩

theorem State.Inv.writeResult {s : State} (hs : s.Inv) (rd : RegId) (w : Word) (v : Nat) :
    (s.writeResult rd w v).Inv := by
  obtain hv | hv := Nat.lt_or_ge v (2 ^ s.cfg.K)
  · rw [State.writeResult_of_fits s rd w v hv]
    exact hs.setReg rd hv
  · rw [State.writeResult_of_overflow s rd w v hv]
    exact hs.raiseFault w (by decide)

theorem State.Inv.acknowledge {s : State} (hs : s.Inv) : s.acknowledge.Inv := by
  obtain ⟨hlegal, hregs, -, -, hflags⟩ := hs
  exact ⟨hlegal, hregs, by simp, by simp, hflags⟩

theorem State.Inv.zeroAll {s : State} (hs : s.Inv) : s.zeroAll.Inv := by
  obtain ⟨hlegal, -, hcause, hword, -⟩ := hs
  exact ⟨hlegal, by simp, hcause, hword, by simp⟩

theorem State.Inv.resetEngine {s : State} (hs : s.Inv) : s.resetEngine.Inv :=
  ⟨hs.legal, by simp, by simp, by simp, by simp⟩

/-- No two values are both equal and in order. -/
theorem State.Inv.setCompare {s : State} (hs : s.Inv) (a b : Nat) :
    (s.setCompare (equalFlag a b) (lessFlag a b)).Inv := by
  obtain ⟨hlegal, hregs, hcause, hword, -⟩ := hs
  refine ⟨hlegal, hregs, hcause, hword, ?_⟩
  simp only [State.setCompare_eq, State.setCompare_lt, equalFlag, lessFlag, beq_iff_eq, decide_eq_true_eq]
  omega

/-- A residue of a modulus that a register holds fits in a register. -/
theorem State.Inv.setReg_residue {s : State} (hs : s.Inv) (rd rm : RegId) {v : Nat} (hv : v < s.reg rm) :
    (s.setReg rd v).Inv :=
  hs.setReg rd (hv.trans (hs.reg_lt rm))

theorem pos_of_not_badMontgomeryModulus {N : Nat} (h : ¬badMontgomeryModulus N = true) : 0 < N := by
  simp only [badMontgomeryModulus, Bool.or_eq_true, beq_iff_eq] at h
  omega

/-- A command whose rule keeps a property keeps it also when it is discarded. -/
theorem runCommand_keeps {P : State → Prop} {s t u : State} (h : runCommand s t = .next u) (hs : P s) (ht : P t) :
    P u := by
  obtain ⟨-, rfl⟩ | ⟨-, rfl⟩ := (runCommand_eq_next s t u).mp h
  · exact hs
  · exact ht

theorem exec_keeps_inv {i : Instr} {s t : State} (hi : i.wellFormed = true) (h : exec i s = .next t)
    (hs : s.Inv) : t.Inv := by
  cases i <;> refine runCommand_keeps h hs ?_
  case clr rd => exact hs.setReg rd (Nat.two_pow_pos _)
  case mov rd ra => exact hs.setReg rd (hs.reg_lt ra)
  case ldi rd imm => exact hs.setReg rd (hs.imm_lt (by simpa [Instr.wellFormed, immFits] using hi))
  case add rd ra rb => exact hs.writeResult rd _ _
  case mul rd ra rb => exact hs.writeResult rd _ _
  case shli rd ra imm => exact hs.writeResult rd _ _
  case shladd rd ra rb imm => exact hs.writeResult rd _ _
  case sub rd ra rb =>
    split
    · exact hs.raiseFault _ (by decide)
    · exact hs.setReg rd ((Nat.sub_le _ _).trans_lt (hs.reg_lt ra))
  case shri rd ra imm =>
    rw [shiftRight_eq]
    exact hs.setReg rd ((Nat.div_le_self _ _).trans_lt (hs.reg_lt ra))
  case maski rd ra imm =>
    rw [maskLowBits_eq]
    exact hs.setReg rd ((Nat.mod_le _ _).trans_lt (hs.reg_lt ra))
  case bitlen rd ra =>
    have hlength : bitLength (s.reg ra) ≤ s.cfg.K := (bitLength_le_iff _ _).mpr (hs.reg_lt ra)
    exact hs.setReg rd (hlength.trans_lt Nat.lt_two_pow_self)
  case cmp ra rb => exact hs.setCompare _ _
  case montmul rd ra rb rm =>
    split
    · exact hs.raiseFault _ (by decide)
    · rename_i hmodulus
      split
      · exact hs.raiseFault _ (by decide)
      · exact hs.setReg_residue rd rm (monPro_lt _ _ (pos_of_not_badMontgomeryModulus hmodulus))
  case montrr rd rm =>
    split
    · exact hs.raiseFault _ (by decide)
    · rename_i hmodulus
      exact hs.setReg_residue rd rm (montgomeryRR_lt (pos_of_not_badMontgomeryModulus hmodulus))
  case modexp rd ra rb rm =>
    split
    · exact hs.raiseFault _ (by decide)
    · rename_i hmodulus
      exact hs.setReg_residue rd rm (modExp_lt _ _ (Nat.pos_of_ne_zero hmodulus))
  case modinv rd ra rm =>
    split
    · exact hs.raiseFault _ (by decide)
    · rename_i hmodulus
      split
      · exact hs.raiseFault _ (by decide)
      · exact hs.setReg_residue rd rm (modInv_lt _ (Nat.pos_of_ne_zero hmodulus))
  case zeroize => exact hs.zeroAll

theorem State.Inv.setLimb {s : State} (hs : s.Inv) (i : RegId) {j : Nat} (v : Word) (hj : j < s.cfg.L) :
    (s.setReg i (replaceLimb (s.reg i) j v.toNat)).Inv := by
  have hreg := hs.reg_lt i
  rw [← hs.limbs_eq] at hreg
  refine hs.setReg i ?_
  rw [← hs.limbs_eq]
  exact replaceLimb_lt hreg hj v.isLt

theorem stepClosed_inv : StepClosed State.Inv where
  take _ _ hs := hs
  respond _ _ hs := hs
  reset _ hs := hs.resetEngine
  acknowledge _ hs := hs.acknowledge
  illegal _ w _ _ hs := hs.raiseFault w (by decide)
  command _ _ _ _ hw h hs := exec_keeps_inv (wellFormed_of_decode hw) h hs
  limb _ i _ v hj hs := hs.setLimb i v hj

/-- Settles O33, by the ways a step can change the state (`StepClosed`). -/
theorem stepKeepsEngineInvariant : Obligations.StepKeepsEngineInvariant := by
  unfold Obligations.StepKeepsEngineInvariant
  exact fun s t hs h => stepClosed_inv.of_step h hs

/-! ### The state after reset (10_state.md R33) -/

@[simp] theorem State.reg_reset (r : RegId) : State.reset.reg r = 0 := by
  simp [State.reg, State.reset]

/-- Settles O34: the record is empty, and the spec's default width is a legal one. -/
theorem resetMeetsEngineInvariant : Obligations.ResetMeetsEngineInvariant := by
  unfold Obligations.ResetMeetsEngineInvariant
  have hlegal : State.reset.cfg.legal = true := by decide
  have hregs (r : RegId) : State.reset.reg r < 2 ^ State.reset.cfg.K := by
    rw [State.reg_reset]
    exact Nat.two_pow_pos _
  exact ⟨⟨hlegal, hregs, by decide, by decide, by decide⟩, recordCoherent_of_ready rfl⟩

/-- Settles O37, field by field; a register reads an element of the zero vector. -/
theorem resetClearsArchitecturalState : Obligations.ResetClearsArchitecturalState := by
  unfold Obligations.ResetClearsArchitecturalState
  exact ⟨State.reg_reset, rfl, rfl, rfl, rfl, rfl⟩

end Sys2Proof.Machine
end

section
/-! PROOFS. The control registers in the window: what STATUS, CAUSE, ERRCMD and PARAM read, and what the step that serves
a write of one does (10_state.md R25 to R29; 20_memory.md R42). -/

namespace Sys2Proof.Machine

@[simp] theorem windowTarget_status (c : Config) : windowTarget c 0x0004 4 = some .status := rfl
@[simp] theorem windowTarget_cause (c : Config) : windowTarget c 0x0008 4 = some .cause := rfl
@[simp] theorem windowTarget_errcmd (c : Config) : windowTarget c 0x000C 4 = some .errcmd := rfl
@[simp] theorem windowTarget_param (c : Config) : windowTarget c 0x0010 4 = some .param := rfl

/-- The step that serves an accepted write: its effect, answered with `ok` (20_memory.md R42). -/
theorem step_of_write {s u : State} {addr : Nat} {v : Word} {rest : List Input} {target : Target}
    (hp : s.pending = .access (.write addr 4 v) :: rest) (htarget : windowTarget s.cfg addr 4 = some target)
    (hwrite : writeTarget (s.take rest) v target = .next u) : step s = .next (u.respond .done) := by
  simp [step_of_pending s _ rest hp, serve, hostAccess, memWrite, htarget, hwrite]

theorem statusWrite_of_even {v : Word} (s : State) (h : v.toNat % 2 = 0) : statusWrite v s = s := by
  simp [statusWrite, BitVec.getLsbD, h]

theorem statusWrite_of_odd {v : Word} (s : State) (h : v.toNat % 2 = 1) : statusWrite v s = s.acknowledge := by
  simp [statusWrite, BitVec.getLsbD, h]

theorem statusWord_toNat (s : State) :
    s.statusWord.toNat = s.err.toNat + 2 * s.eq.toNat + 4 * s.lt.toNat := by
  have herr := s.err.toNat_le
  have heq := s.eq.toNat_le
  have hlt := s.lt.toNat_le
  rw [State.statusWord, BitVec.toNat_ofNat]
  omega

/-- Settles O46: the step of an accepted write (`step_of_write`) with both values of the written bit 0. -/
theorem statusReadsAndAcknowledges : Obligations.StatusReadsAndAcknowledges := by
  unfold Obligations.StatusReadsAndAcknowledges
  refine fun s => ⟨statusWord_toNat s, fun v rest hp => ⟨fun heven => ?_, fun hodd => ?_⟩⟩
  · exact step_of_write hp (windowTarget_status _) (by rw [writeTarget, statusWrite_of_even _ heven])
  · refine ⟨(s.take rest).acknowledge,
      step_of_write hp (windowTarget_status _) (by rw [writeTarget, statusWrite_of_odd _ hodd]), ?_⟩
    simp [SameRegs, SameFlags, SameOutside]

theorem Cause.code_le (c : Cause) : c.code ≤ 6 := by
  cases c <;> decide

theorem causeWord_toNat (s : State) : s.causeWord.toNat = s.cause.code := by
  have hcode := s.cause.code_le
  rw [State.causeWord, BitVec.toNat_ofNat]
  omega

/-- The causes have different codes, so CAUSE tells them apart (60_exceptions.md R171). -/
theorem causeWord_eq_iff (s : State) (c : Cause) : s.causeWord = BitVec.ofNat 32 c.code ↔ s.cause = c := by
  rw [State.causeWord]
  cases s.cause <;> cases c <;> decide

theorem paramWord_toNat {s : State} (h : s.cfg.legal = true) :
    s.paramWord.toNat = s.cfg.K + 32 * 2 ^ 16 + 2 ^ 24 := by
  obtain ⟨-, -, hmax⟩ := (Config.legal_iff _).mp h
  simp only [State.paramWord, Config.limbWidth, Config.revision, BitVec.toNat_ofNat]
  omega

/-- The fields of PARAM: `K`, `W` and the revision (10_state.md R29). -/
theorem paramWord_fields {s : State} (h : s.cfg.legal = true) :
    s.paramWord.toNat % 2 ^ 16 = s.cfg.K ∧ s.paramWord.toNat / 2 ^ 16 % 2 ^ 8 = 32 ∧
      s.paramWord.toNat / 2 ^ 24 = 1 := by
  obtain ⟨-, -, hmax⟩ := (Config.legal_iff _).mp h
  rw [paramWord_toNat h]
  omega

/-- CAUSE, ERRCMD and PARAM take a write and ignore it. -/
theorem step_of_readOnly_write {s : State} {addr : Nat} {v : Word} {rest : List Input}
    (haddr : addr ∈ [0x0008, 0x000C, 0x0010]) (hp : s.pending = .access (.write addr 4 v) :: rest) :
    step s = .next ((s.take rest).respond .done) := by
  simp only [List.mem_cons, List.not_mem_nil, or_false] at haddr
  obtain rfl | rfl | rfl := haddr
  · exact step_of_write hp (windowTarget_cause _) rfl
  · exact step_of_write hp (windowTarget_errcmd _) rfl
  · exact step_of_write hp (windowTarget_param _) rfl

/-- Settles O47: the writes by `step_of_readOnly_write`, CAUSE by its codes being different, PARAM by its value at a legal
width. -/
theorem readOnlyRegistersIgnoreWrites : Obligations.ReadOnlyRegistersIgnoreWrites := by
  unfold Obligations.ReadOnlyRegistersIgnoreWrites
  intro s
  have hcause := causeWord_eq_iff s
  have hcode : s.causeWord.toNat ≤ 6 := (causeWord_toNat s).trans_le s.cause.code_le
  exact ⟨fun _ => ⟨rfl, rfl, rfl⟩, fun _ _ _ haddr hp => step_of_readOnly_write haddr hp, rfl, rfl,
    hcause .none, hcause .illegalCommand, hcause .badModulus, hcause .operandRange, hcause .noInverse,
    hcause .overflow, hcause .underflow, hcode, paramWord_fields⟩

end Sys2Proof.Machine
end

section
/-! PROOFS. The address map of the host window and the accesses it refuses (20_memory.md R43, R44). -/

namespace Sys2Proof.Machine

/-- A legal width has no more limbs than a register's slot of the window (20_memory.md R44). -/
theorem Config.L_le_of_legal {c : Config} (h : c.legal = true) : c.L ≤ 512 := by
  obtain ⟨-, -, hmax⟩ := (Config.legal_iff c).mp h
  rw [Config.L]
  omega

@[simp] theorem windowTarget_cmd (c : Config) : windowTarget c 0x0000 4 = some .cmd := rfl

/-- The accesses that the window refuses: the four cases (a) to (d) of 20_memory.md R43. -/
theorem windowTarget_eq_none_iff (c : Config) (addr width : Nat) :
    windowTarget c addr width = none ↔
      width ≠ 4 ∨ addr % 4 ≠ 0 ∨ 0xFFFF < addr ∨ (0x0014 ≤ addr ∧ addr ≤ 0x7FFF) ∨
        (0x8000 ≤ addr ∧ c.L ≤ (addr - 0x8000) % 0x800 / 4) := by
  rw [windowTarget]
  split_ifs <;> simp only [true_iff, false_iff] <;> omega

/-- The words of a register's slot: its limbs, as far as it has them, and reserved words after them. -/
theorem windowTarget_slot (c : Config) (i : RegId) {j : Nat} (hj : j < 512) :
    windowTarget c (0x8000 + 0x800 * i + 4 * j) 4 = if j < c.L then some (.limb i j) else none := by
  have hi := i.isLt
  have hslot : (0x8000 + 0x800 * i.val + 4 * j - 0x8000) / 0x800 = i := by omega
  have hword : (0x8000 + 0x800 * i.val + 4 * j - 0x8000) % 0x800 / 4 = j := by omega
  have haccepted : ¬((4 : Nat) ≠ 4 ∨ (0x8000 + 0x800 * i.val + 4 * j) % 4 ≠ 0 ∨
      0xFFFF < 0x8000 + 0x800 * i.val + 4 * j) := by omega
  rw [windowTarget, if_neg haccepted, hslot, hword, Fin.ofNat_val_eq_self]
  iterate 6 rw [if_neg (by omega)] -- the five control words and the range below the registers

theorem windowTarget_limb {c : Config} (hc : c.legal = true) (i : RegId) {j : Nat} (hj : j < c.L) :
    windowTarget c (0x8000 + 0x800 * i + 4 * j) 4 = some (.limb i j) := by
  rw [windowTarget_slot c i (hj.trans_le (Config.L_le_of_legal hc)), if_pos hj]

/-- Settles O39: the reserved words below the registers are a case of `windowTarget_eq_none_iff`, the words of the
registers are those of their slots. -/
theorem addressMapIsTheTable : Obligations.AddressMapIsTheTable := by
  unfold Obligations.AddressMapIsTheTable
  intro c hc
  refine ⟨windowTarget_cmd c, windowTarget_status c, windowTarget_cause c, windowTarget_errcmd c,
    windowTarget_param c, fun addr hlow hhigh => ?_, fun i j hj => windowTarget_limb hc i hj, fun i j hL hj => ?_⟩
  · exact (windowTarget_eq_none_iff c addr 4).mpr (by omega)
  · rw [windowTarget_slot c i hj, if_neg (by omega)]

theorem memRead_eq_busError_iff (addr width : Nat) (s : State) :
    memRead addr width s = .busError ↔ windowTarget s.cfg addr width = none := by
  rw [memRead]
  cases windowTarget s.cfg addr width <;> simp

theorem memWrite_eq_busError_iff (addr width : Nat) (v : Word) (s : State) :
    (memWrite addr width v s).2 = .busError ↔ windowTarget s.cfg addr width = none := by
  rw [memWrite]
  cases windowTarget s.cfg addr width <;> simp

/-- A write that the window refuses changes nothing (20_memory.md R43). -/
theorem memWrite_of_refused {addr width : Nat} {s : State} (v : Word)
    (h : windowTarget s.cfg addr width = none) : memWrite addr width v s = (.next s, .busError) := by
  simp [memWrite, h]

/-- Settles O40: a read and a write get `bus_error` exactly where the address map has no target. -/
theorem busErrorExactly : Obligations.BusErrorExactly := by
  unfold Obligations.BusErrorExactly
  intro s addr width v _
  rw [memRead_eq_busError_iff, memWrite_eq_busError_iff]
  refine ⟨windowTarget_eq_none_iff s.cfg addr width, Iff.rfl, fun h => ?_⟩
  rw [memWrite_of_refused v h]

end Sys2Proof.Machine
end

section
/-! PROOFS. The step that serves an access: refused with `bus_error`, or the access's effect with its response kept for
the host (20_memory.md R41 to R45; logs 2, 4 and 5). -/

namespace Sys2Proof.Machine

theorem step_of_refused_access {s : State} {a : HostAccess} {rest : List Input} (hp : s.pending = .access a :: rest)
    (h : (hostAccess a (s.take rest)).2 = .busError) : step s = .refused .busError := by
  rw [step_of_pending s _ rest hp, serve, if_pos h]

theorem step_of_accepted_access {s : State} {a : HostAccess} {rest : List Input} {o : Result} {r : Response}
    (hp : s.pending = .access a :: rest) (h : hostAccess a (s.take rest) = (o, r)) (hr : r ≠ .busError) :
    step s = mapNext (fun t => t.respond r) o := by
  rw [step_of_pending s _ rest hp, serve, h, if_neg hr]

/-- Settles O41, which is one of the two ways to serve an access. -/
theorem stepRefusesBusError : Obligations.StepRefusesBusError := by
  unfold Obligations.StepRefusesBusError
  exact fun s a rest hp h => step_of_refused_access hp h

theorem memRead_of_target {addr width : Nat} {s : State} {t : Target}
    (h : windowTarget s.cfg addr width = some t) : memRead addr width s = .data (readTarget s t) := by
  simp [memRead, h]

theorem memWrite_of_target {addr width : Nat} {s : State} {t : Target} (v : Word)
    (h : windowTarget s.cfg addr width = some t) : memWrite addr width v s = (writeTarget s v t, .done) := by
  simp [memWrite, h]

/-- The host's list is no part of what a read shows. -/
@[simp] theorem readTarget_take (s : State) (rest : List Input) (t : Target) :
    readTarget (s.take rest) t = readTarget s t := by
  cases t <;> rfl

/-- Settles O42: the read's target answers, and the effect of a read is the state as it is. -/
theorem readsHaveNoSideEffect : Obligations.ReadsHaveNoSideEffect := by
  unfold Obligations.ReadsHaveNoSideEffect
  intro s addr t rest hp ht
  have hread : memRead addr 4 (s.take rest) = .data (readTarget s t) := by
    rw [memRead_of_target (by simpa using ht), readTarget_take]
  exact step_of_accepted_access hp (by rw [hostAccess, hread]) (by simp)

/-- Discarded while a fault is on record, as the command itself is then (log 8). -/
theorem commandWrite_of_decode {w : Word} {i : Instr} (s : State) (h : decode w = .ok i) :
    commandWrite w s = exec i s := by
  rw [commandWrite, h]
  split
  · rename_i herr
    rw [exec_of_err i herr]
  · rfl

/-- Settles O23: CMD accepts the write, and its effect is the command's (`commandWrite_of_decode`). -/
theorem stepRunsDecodedCommand : Obligations.StepRunsDecodedCommand := by
  unfold Obligations.StepRunsDecodedCommand
  intro s rest w i hp hw
  refine step_of_accepted_access hp ?_ (by simp)
  rw [hostAccess, memWrite_of_target w (windowTarget_cmd _), writeTarget, commandWrite_of_decode _ hw]

end Sys2Proof.Machine
end

section
/-! PROOFS. A register in the window: its limbs, the write of one, and its bytes (20_memory.md R46, R47). What a limb
write leaves alone is said of the value below the limb and above it. -/

namespace Sys2Proof.Machine

theorem readTarget_limb_toNat (s : State) (i : RegId) (j : Nat) :
    (readTarget s (.limb i j)).toNat = limb (s.reg i) j := by
  rw [readTarget, BitVec.toNat_ofNat, Nat.mod_eq_of_lt (limb_lt _ _)]

theorem replaceLimb_mod (v j w : Nat) : replaceLimb v j w % 2 ^ (32 * j) = v % 2 ^ (32 * j) := by
  rw [replaceLimb_eq, Nat.mul_add_mod, Nat.mod_mod]

theorem replaceLimb_div (v j w : Nat) :
    replaceLimb v j w / 2 ^ (32 * j) = v / 2 ^ (32 * j) - v / 2 ^ (32 * j) % 2 ^ 32 + w := by
  have hpos : 0 < 2 ^ (32 * j) := Nat.two_pow_pos _
  rw [replaceLimb_eq, Nat.mul_add_div hpos, Nat.div_eq_of_lt (Nat.mod_lt v hpos), Nat.add_zero]

theorem limb_replaceLimb_self (v j : Nat) {w : Nat} (hw : w < 2 ^ 32) : limb (replaceLimb v j w) j = w := by
  rw [limb_eq, replaceLimb_div]
  omega

theorem replaceLimb_div_succ (v j : Nat) {w : Nat} (hw : w < 2 ^ 32) :
    replaceLimb v j w / 2 ^ (32 * (j + 1)) = v / 2 ^ (32 * (j + 1)) := by
  rw [Nat.mul_succ, pow_add, ← Nat.div_div_eq_div_mul, ← Nat.div_div_eq_div_mul, replaceLimb_div]
  generalize v / 2 ^ (32 * j) = u
  omega

/-- Limb `k` is a limb of the value below any limb after it. -/
theorem limb_mod_two_pow (v : Nat) {j k : Nat} (h : k < j) : limb (v % 2 ^ (32 * j)) k = limb v k := by
  have hpow : 2 ^ (32 * j) = 2 ^ (32 * k) * (2 ^ 32 * 2 ^ (32 * (j - k - 1))) := by
    rw [← pow_add, ← pow_add]
    congr 1
    omega
  rw [limb_eq, limb_eq, hpow, Nat.mod_mul_right_div_self, Nat.mod_mul_right_mod]

/-- Limb `j + k` is limb `k` of the value above the `j` lowest limbs. -/
theorem limb_div_two_pow (v j k : Nat) : limb (v / 2 ^ (32 * j)) k = limb v (j + k) := by
  rw [limb_eq, limb_eq, Nat.div_div_eq_div_mul, ← pow_add, ← Nat.mul_add]

theorem limb_replaceLimb_of_ne (v : Nat) {j k w : Nat} (hw : w < 2 ^ 32) (h : k ≠ j) :
    limb (replaceLimb v j w) k = limb v k := by
  obtain hlow | hhigh := Nat.lt_or_gt_of_ne h
  · rw [← limb_mod_two_pow _ hlow, replaceLimb_mod, limb_mod_two_pow _ hlow]
  · obtain ⟨d, rfl⟩ := Nat.exists_eq_add_of_le (Nat.succ_le_of_lt hhigh)
    rw [← limb_div_two_pow, replaceLimb_div_succ v j hw, limb_div_two_pow]

/-- Settles O43: the step of an accepted write (`step_of_write`) sets the register to the value with its limb replaced,
whose limbs are known. -/
theorem limbWriteReplacesOneLimb : Obligations.LimbWriteReplacesOneLimb := by
  unfold Obligations.LimbWriteReplacesOneLimb
  refine fun s i j => ⟨by rw [readTarget_limb_toNat, limb_eq], fun v rest hlegal hj hp => ?_⟩
  have hwrites := writes_setReg (s.take rest) i (replaceLimb (s.reg i) j v.toNat)
  refine ⟨_, step_of_write hp (windowTarget_limb hlegal i hj) rfl, ?_, ?_, fun k hk => ?_⟩
  · simpa only [replaceLimb, limb_eq, Nat.shiftLeft_eq, State.reg_take] using hwrites
  · simp [readTarget, limb_replaceLimb_self _ _ v.isLt]
  · simp [readTarget, limb_replaceLimb_of_ne _ v.isLt hk]

/-- The `n` lowest limbs make up the value modulo `2^(32n)`. -/
theorem sum_limbs (v n : Nat) :
    ((List.range n).map fun j => limb v j * 2 ^ (32 * j)).sum = v % 2 ^ (32 * n) := by
  induction n with
  | zero => simp [Nat.mod_one]
  | succ n ih =>
    rw [List.range_succ, List.map_append, List.sum_append, ih, Nat.mul_succ, pow_add, Nat.mod_mul]
    simp [limb_eq, Nat.mul_comm]

/-- Settles O44: a register is below `2^(32L)`, so its `L` limbs make up the whole value. -/
theorem limbsMakeTheValue : Obligations.LimbsMakeTheValue := by
  unfold Obligations.LimbsMakeTheValue
  intro s i hs
  simp only [readTarget_limb_toNat]
  rw [sum_limbs, hs.limbs_eq, Nat.mod_eq_of_lt (hs.reg_lt i)]

/-- Byte `r` of limb `q` is byte `4q + r` of the value. -/
theorem limb_byte (v q : Nat) {r : Nat} (hr : r < 4) :
    limb v q / 2 ^ (8 * r) % 2 ^ 8 = v / 2 ^ (8 * (4 * q + r)) % 2 ^ 8 := by
  have hexp : 8 * (4 * q + r) = 32 * q + 8 * r := by omega
  have hpow : 2 ^ 32 = 2 ^ (8 * r) * (2 ^ 8 * 2 ^ (8 * (3 - r))) := by
    rw [← pow_add, ← pow_add]
    congr 1
    omega
  rw [limb_eq, hexp, pow_add, ← Nat.div_div_eq_div_mul, hpow, Nat.mod_mul_right_div_self, Nat.mod_mul_right_mod]

/-- Settles O45: byte `k` lies in limb `k / 4`, where it is byte `k % 4` (`limb_byte`). -/
theorem byteViewIsLittleEndian : Obligations.ByteViewIsLittleEndian := by
  unfold Obligations.ByteViewIsLittleEndian
  intro s i k hlegal hk
  have hbyte : (0x8000 + 0x800 * i.val + k) % 4 = k % 4 := by omega
  have hword : 0x8000 + 0x800 * i.val + k - k % 4 = 0x8000 + 0x800 * i.val + 4 * (k / 4) := by omega
  rw [byteView, hbyte, hword, windowTarget_limb hlegal i (by omega), Option.map_some, readTarget_limb_toNat, bits_byte,
    limb_byte _ _ (Nat.mod_lt k (by decide)), Nat.div_add_mod]

end Sys2Proof.Machine
end

section
/-! PROOFS. Decoding the word of a command (30_encoding.md R61, R65, R69): fields that are in range do not overlap in a
packed word, so each range of bits that the decoder looks at holds just what was packed there. -/

namespace Sys2Proof

open Machine (bits_eq)

section PackedFields

variable {op rd ra rb low : Nat} (hop : op < 64) (hrd : rd < 16) (hra : ra < 16) (hrb : rb < 16) (hlow : low < 16384)
include hop hrd hra hrb hlow

theorem packWord_toNat :
    (packWord op rd ra rb low).toNat = op * 2 ^ 26 + rd * 2 ^ 22 + ra * 2 ^ 18 + rb * 2 ^ 14 + low := by
  rw [packWord, BitVec.toNat_ofNat]
  omega

@[simp] theorem opcode_packWord : bits (packWord op rd ra rb low).toNat 31 26 = op :=
  Laws.OpcodeField.bits_packWord op low ⟨rd, hrd⟩ ⟨ra, hra⟩ ⟨rb, hrb⟩ hop hlow

/-! #### The register fields and the immediate -/

@[simp] theorem regField_rd_packWord : regField (packWord op rd ra rb low).toNat 22 = Fin.ofNat 16 rd := by
  rw [Fin.ext_iff, regField_val, packWord_toNat hop hrd hra hrb hlow, Fin.val_ofNat]
  omega

@[simp] theorem regField_ra_packWord : regField (packWord op rd ra rb low).toNat 18 = Fin.ofNat 16 ra := by
  rw [Fin.ext_iff, regField_val, packWord_toNat hop hrd hra hrb hlow, Fin.val_ofNat]
  omega

@[simp] theorem regField_rb_packWord : regField (packWord op rd ra rb low).toNat 14 = Fin.ofNat 16 rb := by
  rw [Fin.ext_iff, regField_val, packWord_toNat hop hrd hra hrb hlow, Fin.val_ofNat]
  omega

@[simp] theorem regField_rm_packWord :
    regField (packWord op rd ra rb low).toNat 10 = Fin.ofNat 16 (low / 2 ^ 10) := by
  rw [Fin.ext_iff, regField_val, packWord_toNat hop hrd hra hrb hlow, Fin.val_ofNat]
  omega

@[simp] theorem imm_packWord : bits (packWord op rd ra rb low).toNat 13 0 = low := by
  rw [packWord_toNat hop hrd hra hrb hlow, bits_eq]
  omega

/-! #### The ranges that a row wants zero -/

@[simp] theorem bits_9_0_packWord : bits (packWord op rd ra rb low).toNat 9 0 = low % 2 ^ 10 := by
  rw [packWord_toNat hop hrd hra hrb hlow, bits_eq]
  omega

@[simp] theorem bits_17_14_packWord : bits (packWord op rd ra rb low).toNat 17 14 = rb := by
  rw [packWord_toNat hop hrd hra hrb hlow, bits_eq]
  omega

@[simp] theorem bits_17_0_packWord : bits (packWord op rd ra rb low).toNat 17 0 = rb * 2 ^ 14 + low := by
  rw [packWord_toNat hop hrd hra hrb hlow, bits_eq]
  omega

@[simp] theorem bits_21_14_packWord : bits (packWord op rd ra rb low).toNat 21 14 = ra * 2 ^ 4 + rb := by
  rw [packWord_toNat hop hrd hra hrb hlow, bits_eq]
  omega

@[simp] theorem bits_21_0_packWord :
    bits (packWord op rd ra rb low).toNat 21 0 = ra * 2 ^ 18 + rb * 2 ^ 14 + low := by
  rw [packWord_toNat hop hrd hra hrb hlow, bits_eq]
  omega

@[simp] theorem bits_25_22_packWord : bits (packWord op rd ra rb low).toNat 25 22 = rd := by
  rw [packWord_toNat hop hrd hra hrb hlow, bits_eq]
  omega

end PackedFields

/-- Settles O1: the decoder reads each field of the packed word back. The rows differ in what stands in the lowest 14
bits: an immediate, the modulus register, or nothing. -/
theorem decodeOfEncode : Obligations.DecodeOfEncode := by
  unfold Obligations.DecodeOfEncode
  intro i h
  cases i
  case ldi | shli | shri | maski | shladd =>
    have himm := of_decide_eq_true h
    simp [encode, decode, whenZero, himm]
  case montmul rm | montrr rm | modexp rm | modinv rm =>
    have hrm : rm.val * 1024 < 16384 := by omega
    simp [encode, decode, whenZero, hrm]
  case clr | mov | add | sub | mul | bitlen | cmp => simp [encode, decode, whenZero]
  case zeroize => rfl

/-- Settles O2: the word packs back from its fields (`encode_of_decode`), and the immediate's field has 14 bits
(`wellFormed_of_decode`). -/
theorem encodeOfDecode : Obligations.EncodeOfDecode := by
  unfold Obligations.EncodeOfDecode
  exact fun _ _ h => ⟨encode_of_decode h, wellFormed_of_decode h⟩

/-- Settles O5, by running the decoder on the ten words. -/
theorem specWordsDecode : Obligations.SpecWordsDecode := by
  unfold Obligations.SpecWordsDecode
  decide

end Sys2Proof
end

section
/-! PROOFS. The decoder follows the opcode map (30_encoding.md R64 to R66). A row's mask is the opcode field and the
bits below it that the row wants zero; the opcode chooses the row, and the other bits decide between its command and
`mustBeZero`. -/

namespace Sys2Proof

open Machine (bits_eq)

/-- The opcode of a row (R64, column `op`). -/
def OpcodeRow.opcode (r : OpcodeRow) : Nat := bits r.match_.toNat 31 26

/-- The bits below the opcode that a row wants zero, as a mask. -/
def OpcodeRow.zeroMask (r : OpcodeRow) : Nat := r.mask.toNat % 2 ^ 26

/-- The mask of the bits `hi:lo`. -/
def fieldMask (hi lo : Nat) : Nat := 2 ^ lo * (2 ^ (hi + 1 - lo) - 1)

theorem and_fieldMask (v hi lo : Nat) : v &&& fieldMask hi lo = 2 ^ lo * bits v hi lo := by
  apply Nat.eq_of_testBit_eq
  intro k
  rw [fieldMask, bits, Nat.testBit_and, Nat.testBit_two_pow_mul, Nat.testBit_two_pow_mul,
    Nat.testBit_two_pow_sub_one, Nat.testBit_mod_two_pow, Nat.testBit_shiftRight]
  by_cases hk : lo ≤ k
  · simp [hk, Bool.and_comm]
  · simp [hk]

theorem and_fieldMask_eq_zero (v hi lo : Nat) : v &&& fieldMask hi lo = 0 ↔ bits v hi lo = 0 := by
  simp [and_fieldMask]

theorem and_fieldMask_or_eq_zero (v hi lo hi' lo' : Nat) :
    v &&& (fieldMask hi lo ||| fieldMask hi' lo') = 0 ↔ bits v hi lo + bits v hi' lo' = 0 := by
  rw [Nat.and_or_distrib_left, Nat.or_eq_zero_iff, and_fieldMask_eq_zero, and_fieldMask_eq_zero, Nat.add_eq_zero_iff]

/-- Every row's mask covers the opcode field, and its match has no bit below that. -/
theorem opcodeMap_masks :
    ∀ row ∈ opcodeMap, row.mask.toNat / 2 ^ 26 = 2 ^ 6 - 1 ∧ row.match_.toNat % 2 ^ 26 = 0 := by
  decide

theorem opcode_injOn_opcodeMap :
    ∀ row ∈ opcodeMap, ∀ row' ∈ opcodeMap, row.opcode = row'.opcode → row = row' := by
  decide

theorem mnemonic_injOn_opcodeMap :
    ∀ row ∈ opcodeMap, ∀ row' ∈ opcodeMap, row.mnemonic = row'.mnemonic → row = row' := by
  decide

/-- A word and a row's match are compared in the opcode field and below it. -/
theorem selectedBy_iff {row : OpcodeRow} (w : Word) (hrow : row ∈ opcodeMap) :
    row.selectedBy w = true ↔ bits w.toNat 31 26 = row.opcode ∧ w.toNat &&& row.zeroMask = 0 := by
  obtain ⟨hmask, hmatch⟩ := opcodeMap_masks row hrow
  have hop : row.opcode = row.match_.toNat / 2 ^ 26 := by
    have := row.match_.isLt
    rw [OpcodeRow.opcode, bits_eq]
    omega
  have hlow : w.toNat % 2 ^ 26 &&& row.zeroMask = w.toNat &&& row.zeroMask := by
    have hzero : row.zeroMask < 2 ^ 26 := Nat.mod_lt _ (by decide)
    rw [← Nat.mod_eq_of_lt (Nat.and_lt_two_pow w.toNat hzero), Nat.and_mod_two_pow, Nat.mod_eq_of_lt hzero]
  rw [OpcodeRow.selectedBy, beq_iff_eq, ← BitVec.toNat_inj, BitVec.toNat_and, Nat.ext_div_mod_iff (2 ^ 26),
    Nat.and_div_two_pow, Nat.and_mod_two_pow, hmask, hmatch, Nat.and_two_pow_sub_one_eq_mod, hop, bits_eq,
    ← OpcodeRow.zeroMask, hlow]

/-- At a row's opcode the decoder has the row's command, and tests exactly the bits of the row's mask. -/
theorem decode_eq_whenZero (w : Word) : ∀ row ∈ opcodeMap, bits w.toNat 31 26 = row.opcode →
    ∃ z i, decode w = whenZero z i ∧ i.mnemonic = row.mnemonic ∧ (w.toNat &&& row.zeroMask = 0 ↔ z = 0) := by
  simp only [opcodeMap, List.forall_mem_cons, List.not_mem_nil, false_imp_iff, implies_true, and_true]
  refine ⟨?clr, ?mov, ?ldi, ?add, ?sub, ?mul, ?shli, ?shri, ?maski, ?shladd, ?bitlen, ?cmp, ?montmul, ?montrr,
    ?modexp, ?modinv, ?zeroize⟩ <;> intro hop
  case shladd => exact ⟨0, _, by rw [decode, hop]; rfl, rfl, by simp [OpcodeRow.zeroMask]⟩
  all_goals refine ⟨_, _, by rw [decode, hop]; rfl, rfl, ?_⟩
  case clr => exact and_fieldMask_eq_zero _ 21 0
  case ldi => exact and_fieldMask_eq_zero _ 21 14
  case mov | bitlen => exact and_fieldMask_eq_zero _ 17 0
  case add | sub | mul => exact and_fieldMask_eq_zero _ 13 0
  case shli | shri | maski => exact and_fieldMask_eq_zero _ 17 14
  case montmul | modexp => exact and_fieldMask_eq_zero _ 9 0
  case zeroize => exact and_fieldMask_eq_zero _ 25 0
  case cmp => exact and_fieldMask_or_eq_zero _ 25 22 13 0
  case montrr => exact and_fieldMask_or_eq_zero _ 21 14 9 0
  case modinv => exact and_fieldMask_or_eq_zero _ 17 14 9 0

/-- At a row's opcode a word is the row's command if it selects the row, and else has a bit that must be zero. -/
theorem decode_of_opcode {w : Word} {row : OpcodeRow} (hrow : row ∈ opcodeMap)
    (hop : bits w.toNat 31 26 = row.opcode) :
    ∃ i, i.mnemonic = row.mnemonic ∧ decode w = if row.selectedBy w then .ok i else .error .mustBeZero := by
  obtain ⟨z, i, hdecode, hi, hz⟩ := decode_eq_whenZero w row hrow hop
  refine ⟨i, hi, ?_⟩
  simp [hdecode, whenZero, selectedBy_iff w hrow, hop, hz]

/-- R66 (a): an opcode of no row is enough to make a word illegal. -/
theorem decode_of_unlisted_opcode {w : Word} (h : bits w.toNat 31 26 ∉ opcodeMap.map OpcodeRow.opcode) :
    decode w = .error .unusedOpcode := by
  simp only [decode]
  split <;> rename_i hop
  case h_18 => rfl
  all_goals
    rw [hop] at h
    exact absurd (by decide) h

/-- The opcode of a word is that of no row, or it picks a row. -/
theorem opcode_cases (w : Word) :
    bits w.toNat 31 26 ∉ opcodeMap.map OpcodeRow.opcode ∨
      ∃ row ∈ opcodeMap, bits w.toNat 31 26 = row.opcode := by
  simp only [List.mem_map, eq_comm]
  exact (em _).symm

/-- A word decodes to a command only through a row that it selects. -/
theorem exists_selectedBy_of_decode {w : Word} {i : Instr} (h : decode w = .ok i) :
    ∃ row ∈ opcodeMap, row.selectedBy w = true ∧ i.mnemonic = row.mnemonic := by
  obtain hop | ⟨row, hrow, hop⟩ := opcode_cases w
  · cases (decode_of_unlisted_opcode hop).symm.trans h
  · obtain ⟨j, hj, hdecode⟩ := decode_of_opcode hrow hop
    rw [h] at hdecode
    split at hdecode
    next hsel =>
      cases hdecode
      exact ⟨row, hrow, hsel, hj⟩
    next => cases hdecode

/-- Settles O3: a selected row decodes to its command (`decode_of_opcode`), a command comes from a selected row
(`exists_selectedBy_of_decode`), and no two rows share a mnemonic or an opcode. -/
theorem decodeFollowsOpcodeMap : Obligations.DecodeFollowsOpcodeMap := by
  unfold Obligations.DecodeFollowsOpcodeMap
  refine fun w => ⟨fun row hrow => ⟨fun hsel => ?_, ?_⟩, fun row hrow row' hrow' hsel hsel' => ?_⟩
  · obtain ⟨hop, -⟩ := (selectedBy_iff w hrow).mp hsel
    obtain ⟨i, hi, hdecode⟩ := decode_of_opcode hrow hop
    exact ⟨i, hdecode.trans (if_pos hsel), hi⟩
  · rintro ⟨i, hdecode, hi⟩
    obtain ⟨row', hrow', hsel, hi'⟩ := exists_selectedBy_of_decode hdecode
    rwa [mnemonic_injOn_opcodeMap row hrow row' hrow' (hi.symm.trans hi')]
  · obtain ⟨hop, -⟩ := (selectedBy_iff w hrow).mp hsel
    obtain ⟨hop', -⟩ := (selectedBy_iff w hrow').mp hsel'
    exact opcode_injOn_opcodeMap row hrow row' hrow' (hop.symm.trans hop')

theorem decode_eq_unusedOpcode_iff (w : Word) :
    decode w = .error .unusedOpcode ↔ bits w.toNat 31 26 ∉ opcodeMap.map OpcodeRow.opcode := by
  refine ⟨fun h hmem => ?_, decode_of_unlisted_opcode⟩
  obtain ⟨row, hrow, hop⟩ := List.mem_map.mp hmem
  obtain ⟨i, -, hdecode⟩ := decode_of_opcode hrow hop.symm
  rw [h] at hdecode
  split at hdecode <;> cases hdecode

theorem decode_eq_mustBeZero_iff (w : Word) :
    decode w = .error .mustBeZero ↔
      ∃ row ∈ opcodeMap, bits w.toNat 31 26 = row.opcode ∧ row.selectedBy w = false := by
  constructor
  · intro h
    obtain hop | ⟨row, hrow, hop⟩ := opcode_cases w
    · cases (decode_of_unlisted_opcode hop).symm.trans h
    · obtain ⟨i, -, hdecode⟩ := decode_of_opcode hrow hop
      refine ⟨row, hrow, hop, Bool.eq_false_iff.mpr fun hsel => ?_⟩
      cases h.symm.trans (hdecode.trans (if_pos hsel))
  · rintro ⟨row, hrow, hop, hsel⟩
    obtain ⟨i, -, hdecode⟩ := decode_of_opcode hrow hop
    simpa [hsel] using hdecode

/-- The 6-bit numbers that are no opcode of the map, as R66 (a) lists them. -/
theorem unlisted_opcode_iff : ∀ op < 64, op ∉ opcodeMap.map OpcodeRow.opcode ↔
    op = 0x00 ∨ (0x0D ≤ op ∧ op ≤ 0x0F) ∨ (0x12 ≤ op ∧ op ≤ 0x17) ∨ (0x1A ≤ op ∧ op ≤ 0x3E) := by
  decide

/-- Settles O4: the opcode alone decides (a), and the row of the word's opcode decides (b). -/
theorem illegalWordsAreExactly : Obligations.IllegalWordsAreExactly := by
  unfold Obligations.IllegalWordsAreExactly
  intro w
  have hop : bits w.toNat 31 26 < 64 := Nat.mod_lt _ (by decide)
  exact ⟨(decode_eq_unusedOpcode_iff w).trans (unlisted_opcode_iff _ hop), decode_eq_mustBeZero_iff w⟩

end Sys2Proof
end

section
/-! PROOFS. How a run of one command is proved (40_bignum_primitives.md R80): the state its rule gives, and the property
that this kind of state has. The checked write is said once for the four commands that may overflow. -/

namespace Sys2Proof.Machine

variable {i : Instr} {s : State} {rd : RegId} {v : Nat}

/-- A command whose rule gives `t` completes, in a ready engine, with what holds of `t`. -/
theorem Completes.of_ready {t : State} {P : State → Prop} (hexec : exec i s = runCommand s t) (hs : s.err = false)
    (ht : P t) : Completes i s P :=
  ⟨t, hexec.trans (runCommand_of_ready s t hs), ht⟩

theorem Completes.of_setReg (hexec : exec i s = runCommand s (s.setReg rd v)) (hs : s.err = false) :
    Completes i s (Writes rd v s) :=
  .of_ready hexec hs (writes_setReg s rd v)

theorem Completes.of_raiseFault {c : Cause} {w : Word} (hexec : exec i s = runCommand s (s.raiseFault c w))
    (hs : s.err = false) : Completes i s (Faults c w s) :=
  .of_ready hexec hs (faults_raiseFault s c w)

theorem Completes.of_writeResult_fits {w : Word} (hexec : exec i s = runCommand s (s.writeResult rd w v))
    (hs : s.err = false) (hfits : v < 2 ^ s.cfg.K) : Completes i s (Writes rd v s) :=
  .of_setReg (hexec.trans (by rw [State.writeResult_of_fits s rd w v hfits])) hs

theorem Completes.of_writeResult_overflow {w : Word} (hexec : exec i s = runCommand s (s.writeResult rd w v))
    (hs : s.err = false) (hover : 2 ^ s.cfg.K ≤ v) : Completes i s (Faults .overflow w s) :=
  .of_raiseFault (hexec.trans (by rw [State.writeResult_of_overflow s rd w v hover])) hs

/-- The registers that a command does not name as its destination (40_bignum_primitives.md R80). -/
theorem exec_keeps_other_regs {t : State} {r : RegId} (hzeroize : i ≠ .zeroize) (h : exec i s = .next t)
    (hr : i.dest? ≠ some r) : t.reg r = s.reg r := by
  obtain ⟨-, rfl⟩ | ⟨-, heffect⟩ := exec_cases h
  · rfl
  · cases heffect with
    | write rd v hd => exact State.reg_setReg_of_ne s rd r v fun hrd => hr (hrd ▸ hd)
    | fault | compare => rfl
    | clear hi => exact absurd hi hzeroize

end Sys2Proof.Machine
end

section
/-! PROOFS. The bit length is the library's `Nat.size`, so that a product and a shift are measured by the bit lengths of
their operands (40_bignum_primitives.md R86, R87). -/

namespace Sys2Proof.Machine

theorem bitLength_eq_size (v : Nat) : bitLength v = v.size :=
  eq_of_forall_ge_iff fun n => (bitLength_le_iff v n).trans Nat.size_le.symm

theorem mul_lt_two_pow_of_bitLength {a b K : Nat} (h : bitLength a + bitLength b ≤ K) : a * b < 2 ^ K :=
  calc a * b < 2 ^ bitLength a * 2 ^ bitLength b :=
        Nat.mul_lt_mul'' (lt_two_pow_bitLength a) (lt_two_pow_bitLength b)
    _ = 2 ^ (bitLength a + bitLength b) := (pow_add 2 _ _).symm
    _ ≤ 2 ^ K := Nat.pow_le_pow_right two_pos h

theorem shiftLeft_lt_two_pow_iff {v : Nat} (hv : v ≠ 0) (n K : Nat) :
    shiftLeft v n < 2 ^ K ↔ bitLength v + n ≤ K := by
  rw [shiftLeft, ← Nat.size_le, Nat.size_shiftLeft hv, bitLength_eq_size]

/-- A sum of fields that do not overlap is their bitwise or (40_bignum_primitives.md R90; 90_conflicts.md C4). -/
theorem mul_two_pow_add_eq_or (a : Nat) {b n : Nat} (hb : b < 2 ^ n) : a * 2 ^ n + b = a <<< n ||| b := by
  rw [← Nat.shiftLeft_add_eq_or_of_lt hb, Nat.shiftLeft_eq]

end Sys2Proof.Machine
end

section
/-! PROOFS. The bignum primitives (40_bignum_primitives.md R80 to R92), command by command: the word from
`packWord_toNat`, the effect from the command's rule. -/

namespace Sys2Proof.Machine

/-- Settles O29: the window shows a limb of a register, and no register but the destination changes
(`exec_keeps_other_regs`). -/
theorem commandsWriteOneRegisterAtMost : Obligations.CommandsWriteOneRegisterAtMost := by
  unfold Obligations.CommandsWriteOneRegisterAtMost
  intro i s t hzeroize h r hr
  have hreg : t.reg r = s.reg r := exec_keeps_other_regs hzeroize h hr
  exact ⟨hreg, fun j => by simp only [readTarget, hreg]⟩

/-! ### Commands that write what their rule gives -/

/-- Settles O6: the rule of CLR is one register write. -/
theorem clrWritesZero : Obligations.ClrWritesZero := by
  unfold Obligations.ClrWritesZero
  exact fun rd => ⟨by simp [encode, packWord_toNat], fun s hs => .of_setReg rfl hs⟩

/-- Settles O7: the rule of MOV is one register write. -/
theorem movCopiesRegister : Obligations.MovCopiesRegister := by
  unfold Obligations.MovCopiesRegister
  exact fun rd ra => ⟨by simp [encode, packWord_toNat], fun s hs => .of_setReg rfl hs⟩

/-- Settles O8: the immediate fits its field of the word, and the rule of LDI is one register write. -/
theorem ldiWritesImmediate : Obligations.LdiWritesImmediate := by
  unfold Obligations.LdiWritesImmediate
  exact fun rd imm (himm : imm < 16384) =>
    ⟨by simp [encode, packWord_toNat, himm], fun s hs => .of_setReg rfl hs⟩

/-- Settles O13: a right shift is the quotient by the power of two. -/
theorem shriWritesQuotient : Obligations.ShriWritesQuotient := by
  unfold Obligations.ShriWritesQuotient
  intro rd ra n (hn : n < 16384)
  refine ⟨by simp [encode, packWord_toNat, hn], fun s hs => ?_⟩
  rw [← shiftRight_eq]
  exact .of_setReg rfl hs

/-- Settles O14: the low bits are the remainder modulo the power of two. -/
theorem maskiKeepsLowBits : Obligations.MaskiKeepsLowBits := by
  unfold Obligations.MaskiKeepsLowBits
  intro rd ra n (hn : n < 16384)
  refine ⟨by simp [encode, packWord_toNat, hn], fun s hs => ?_⟩
  rw [← maskLowBits_eq]
  exact .of_setReg rfl hs

/-- Settles O16: the value written is `bitLength`, which is least by `bitLength_le_iff`. -/
theorem bitlenWritesBitLength : Obligations.BitlenWritesBitLength := by
  unfold Obligations.BitlenWritesBitLength
  intro rd ra
  refine ⟨by simp [encode, packWord_toNat], fun s hs => ?_⟩
  exact ⟨bitLength (s.reg ra), lt_two_pow_bitLength _, fun m => (bitLength_le_iff _ m).mpr, .of_setReg rfl hs⟩

/-! ### Commands that may overflow -/

/-- Settles O9: the checked write of the sum. -/
theorem addWritesExactSum : Obligations.AddWritesExactSum := by
  unfold Obligations.AddWritesExactSum
  exact fun rd ra rb => ⟨by simp [encode, packWord_toNat],
    fun s hs => ⟨.of_writeResult_fits rfl hs, .of_writeResult_overflow rfl hs⟩⟩

/-- Settles O11: the checked write of the product, which the bit lengths of its factors bound
(`mul_lt_two_pow_of_bitLength`). -/
theorem mulWritesExactProduct : Obligations.MulWritesExactProduct := by
  unfold Obligations.MulWritesExactProduct
  exact fun rd ra rb => ⟨by simp [encode, packWord_toNat],
    fun s hs => ⟨.of_writeResult_fits rfl hs, .of_writeResult_overflow rfl hs,
      fun hlen => .of_writeResult_fits rfl hs (mul_lt_two_pow_of_bitLength hlen)⟩⟩

/-- Settles O12: the checked write of the shifted value. Zero fits at every count; of any other operand
`shiftLeft_lt_two_pow_iff` says when it fits. -/
theorem shliWritesExactShift : Obligations.ShliWritesExactShift := by
  unfold Obligations.ShliWritesExactShift
  intro rd ra n (hn : n < 16384)
  refine ⟨by simp [encode, packWord_toNat, hn], fun s hs => ⟨fun hfits => ?_, fun hne hlong => ?_⟩⟩
  · rw [← shiftLeft_eq]
    refine .of_writeResult_fits rfl hs ?_
    by_cases hzero : s.reg ra = 0
    · simp [hzero, shiftLeft_eq]
    · exact (shiftLeft_lt_two_pow_iff hzero n _).mpr (hfits.resolve_left hzero)
  · refine .of_writeResult_overflow rfl hs (Nat.le_of_not_lt fun hlt => ?_)
    exact Nat.not_le.mpr hlong ((shiftLeft_lt_two_pow_iff hne n _).mp hlt)

/-- Settles O15: the checked write of the shifted sum, which is an or where `x[rb]` stays below the shifted bits
(`mul_two_pow_add_eq_or`). -/
theorem shladdWritesExactSum : Obligations.ShladdWritesExactSum := by
  unfold Obligations.ShladdWritesExactSum
  intro rd ra rb n (hn : n < 16384)
  refine ⟨by simp [encode, packWord_toNat, hn], fun s hs => ?_⟩
  have hexec : exec (.shladd rd ra rb n) s = runCommand s
      (s.writeResult rd (encode (.shladd rd ra rb n)) (s.reg ra * 2 ^ n + s.reg rb)) := by
    rw [← shiftLeft_eq]; rfl
  refine ⟨.of_writeResult_fits hexec hs, fun hfits hlow => ?_, .of_writeResult_overflow hexec hs⟩
  rw [← mul_two_pow_add_eq_or _ hlow]
  exact .of_writeResult_fits hexec hs hfits

/-! ### SUB and CMP -/

/-- Settles O10: the two branches of the rule of SUB. -/
theorem subWritesExactDifference : Obligations.SubWritesExactDifference := by
  unfold Obligations.SubWritesExactDifference
  intro rd ra rb
  refine ⟨by simp [encode, packWord_toNat], fun s hs => ⟨fun d hd => ?_, fun hlt => ?_⟩⟩
  · have hnot : ¬s.reg ra < s.reg rb := by omega
    have hdiff : s.reg ra - s.reg rb = d := by omega
    rw [← hdiff]
    exact .of_setReg (congrArg (runCommand s) (if_neg hnot)) hs
  · exact .of_raiseFault (congrArg (runCommand s) (if_pos hlt)) hs

/-- Settles O17: the flags CMP writes are the two comparisons, and nothing else of the state is written. -/
theorem cmpWritesBothFlags : Obligations.CmpWritesBothFlags := by
  unfold Obligations.CmpWritesBothFlags
  intro ra rb
  refine ⟨by simp [encode, packWord_toNat], fun s hs => .of_ready rfl hs ⟨?_, ?_, fun _ => rfl, ?_, ?_⟩⟩
  · simp [equalFlag]
  · simp [lessFlag]
  · exact ⟨rfl, rfl, rfl⟩
  · exact ⟨rfl, rfl, rfl⟩

end Sys2Proof.Machine
end

section
/-! PROOFS. The extended Euclidean engine (43_modinv.md R130, R132), on which the Montgomery product rests: the remainders
end in the gcd, and the last coefficient is an inverse of `a` modulo `m` when that gcd is 1. -/

namespace Sys2Proof.Machine

/-- The remainders of the loop are those of Euclid's algorithm. -/
theorem euclidLoop_fst {fuel r0 r1 : Nat} (t0 t1 : Int) (h : r1 ≤ fuel) :
    (euclidLoop fuel r0 r1 t0 t1).1 = Nat.gcd r0 r1 := by
  induction fuel generalizing r0 r1 t0 t1 with
  | zero => simp [euclidLoop, Nat.le_zero.mp h]
  | succ fuel ih =>
    rw [euclidLoop]
    split
    · simp [*]
    · have hrem : r0 % r1 < r1 := Nat.mod_lt r0 (Nat.pos_of_ne_zero ‹_›)
      rw [ih _ _ (by omega), Nat.gcd_comm r0 r1, Nat.gcd_rec r1 r0, Nat.gcd_comm]

/-- Every remainder is its coefficient times `a`, modulo `m`. -/
theorem euclidLoop_modEq {a m : Nat} (fuel : Nat) {r0 r1 : Nat} {t0 t1 : Int} (h0 : t0 * a ≡ r0 [ZMOD m])
    (h1 : t1 * a ≡ r1 [ZMOD m]) :
    (euclidLoop fuel r0 r1 t0 t1).2 * a ≡ (euclidLoop fuel r0 r1 t0 t1).1 [ZMOD m] := by
  induction fuel generalizing r0 r1 t0 t1 with
  | zero => exact h0
  | succ fuel ih =>
    rw [euclidLoop]
    split
    · exact h0
    · refine ih h1 ?_
      have hrem : ((r0 % r1 : Nat) : Int) = r0 - (r0 / r1 : Nat) * r1 := by
        push_cast
        linarith [Int.emod_add_mul_ediv r0 r1]
      rw [hrem, sub_mul, mul_assoc]
      exact h0.sub (h1.mul_left _)

theorem euclidLoop_start_fst (a : Nat) {m : Nat} (hm : 0 < m) : (euclidLoop m m (a % m) 0 1).1 = Nat.gcd a m := by
  rw [euclidLoop_fst 0 1 (Nat.mod_lt a hm).le, Nat.gcd_comm, ← Nat.gcd_rec, Nat.gcd_comm]

theorem euclidLoop_start_modEq (a m : Nat) :
    (euclidLoop m m (a % m) 0 1).2 * a ≡ (euclidLoop m m (a % m) 0 1).1 [ZMOD m] :=
  euclidLoop_modEq m (by simp [Int.ModEq]) (by simp [Int.ModEq])

theorem euclidLoop_start_natAbs_lt (a : Nat) {m : Nat} (hm : 0 < m) :
    (euclidLoop m m (a % m) 0 1).2.natAbs < m := by
  simpa using euclidLoop_natAbs_lt m (p := 0) (q := 1) (-1) (Nat.mod_lt a hm) hm (by simp)

theorem modInvEngine_eq_none_iff {a m : Nat} (hm : 0 < m) : modInvEngine a m = none ↔ Nat.gcd a m ≠ 1 := by
  rw [modInvEngine, euclidLoop_start_fst a hm]
  split_ifs <;> simp [*]

/-- The answer is the Bezout coefficient of `a` modulo `m`. -/
theorem mul_modInvEngine_modEq {a m d : Nat} (hm : 0 < m) (h : modInvEngine a m = some d) : a * d ≡ 1 [MOD m] := by
  have hcoeff := euclidLoop_start_natAbs_lt a hm
  have hbezout := euclidLoop_start_modEq a m
  rw [modInvEngine] at h
  split_ifs at h with hgcd hneg <;> cases h <;> rw [← Int.natCast_modEq_iff] <;> push_cast
  all_goals rw [not_not.mp hgcd] at hbezout
  · rw [Int.toNat_of_nonneg (by omega), mul_comm]
    simpa [Int.ModEq, add_mul] using hbezout
  · rw [Int.toNat_of_nonneg (not_lt.mp hneg), mul_comm]
    exact hbezout

theorem mul_modInv_modEq {a m : Nat} (hm : 0 < m) (h : Nat.gcd a m = 1) : a * modInv a m ≡ 1 [MOD m] := by
  obtain ⟨d, hd⟩ := Option.ne_none_iff_exists'.mp (mt (modInvEngine_eq_none_iff hm).mp (not_not.mpr h))
  rw [modInv, hd, Option.getD_some]
  exact mul_modInvEngine_modEq hm hd

end Sys2Proof.Machine
end

section
/-! PROOFS. The Montgomery radix and the Montgomery product (41_montgomery.md R110, R111). A modulus and its radix are
coprime, so the product is known by what it is congruent to once the radix is multiplied back
(`monPro_eq_of_mul_radix_modEq`). -/

namespace Sys2Proof.Machine

theorem lt_two_pow_limbs (N : Nat) : N < 2 ^ (32 * limbCount N) := by
  rw [← bitLength_le_iff, limbCount]
  omega

theorem one_le_limbCount {N : Nat} (hN : 1 ≤ N) : 1 ≤ limbCount N := by
  have hlength : ¬bitLength N ≤ 0 := by
    rw [bitLength_le_iff]
    omega
  rw [limbCount]
  omega

/-- No fewer limbs hold the modulus. -/
theorem two_pow_limbs_pred_le {N : Nat} (hN : 1 ≤ N) : 2 ^ (32 * (limbCount N - 1)) ≤ N := by
  have hcount := one_le_limbCount hN
  rw [← Nat.not_lt, ← bitLength_le_iff]
  rw [limbCount] at hcount ⊢
  omega

theorem two_pow_coprime_of_odd {N : Nat} (hN : N % 2 = 1) (k : Nat) : Nat.Coprime (2 ^ k) N :=
  (Nat.coprime_two_left.mpr (Nat.odd_iff.mpr hN)).pow_left k

theorem radix_coprime_of_odd {N : Nat} (hN : N % 2 = 1) : Nat.Coprime (radix N) N := by
  rw [radix_eq]
  exact two_pow_coprime_of_odd hN _

/-- Settles O48: the limb count is the least whole number of limbs for the bit length of `N`, and a power of two is
coprime to an odd number. -/
theorem montgomeryRadixBracketsModulus : Obligations.MontgomeryRadixBracketsModulus := by
  unfold Obligations.MontgomeryRadixBracketsModulus
  exact fun N hN => ⟨one_le_limbCount hN, two_pow_limbs_pred_le hN, lt_two_pow_limbs N, radix_eq N,
    radix_coprime_of_odd⟩

section OddModulus

variable {N : Nat} (hN : N % 2 = 1)
include hN

theorem monPro_mul_radix_modEq (a b : Nat) : monPro a b N * radix N ≡ a * b [MOD N] := by
  have hinv : radix N * modInv (radix N) N ≡ 1 [MOD N] := mul_modInv_modEq (by omega) (radix_coprime_of_odd hN)
  calc monPro a b N * radix N
      ≡ a * b * modInv (radix N) N * radix N [MOD N] := (Nat.mod_modEq _ _).mul_right _
    _ = a * b * (radix N * modInv (radix N) N) := by ring
    _ ≡ a * b * 1 [MOD N] := hinv.mul_left _
    _ = a * b := mul_one _

/-- The radix can be cancelled, so there is one residue that it takes to `a * b`. -/
theorem monPro_eq_of_mul_radix_modEq {a b t : Nat} (h : t * radix N ≡ a * b [MOD N]) : monPro a b N = t % N := by
  have hcancel : monPro a b N ≡ t [MOD N] :=
    Nat.ModEq.cancel_right_of_coprime (radix_coprime_of_odd hN).symm
      ((monPro_mul_radix_modEq hN a b).trans h.symm)
  rw [← hcancel, Nat.mod_eq_of_lt (monPro_lt a b (by omega))]

/-- The product of two Montgomery forms is the Montgomery form of the product. -/
theorem monPro_forms (a b : Nat) : monPro (a * radix N % N) (b * radix N % N) N = a * b * radix N % N := by
  refine monPro_eq_of_mul_radix_modEq hN ?_
  rw [show a * b * radix N * radix N = a * radix N * (b * radix N) by ring]
  exact ((Nat.mod_modEq _ _).mul (Nat.mod_modEq _ _)).symm

/-- Into Montgomery form, by a product with the conversion constant. -/
theorem monPro_radix_sq (a : Nat) : monPro a (radix N ^ 2 % N) N = a * radix N % N := by
  refine monPro_eq_of_mul_radix_modEq hN ?_
  rw [show a * radix N * radix N = a * radix N ^ 2 by ring]
  exact ((Nat.mod_modEq _ _).mul_left a).symm

/-- Out of Montgomery form, by a product with 1. -/
theorem monPro_form_one (a : Nat) : monPro (a * radix N % N) 1 N = a % N := by
  refine monPro_eq_of_mul_radix_modEq hN ?_
  rw [mul_one]
  exact (Nat.mod_modEq _ _).symm

end OddModulus

/-- Settles O49: each identity says which residue the radix takes to the product (`monPro_eq_of_mul_radix_modEq`). -/
theorem monProIsTheMontgomeryProduct : Obligations.MonProIsTheMontgomeryProduct := by
  unfold Obligations.MonProIsTheMontgomeryProduct
  refine fun N a b hN => ⟨⟨monPro_lt a b (by omega), monPro_mul_radix_modEq hN a b, fun t ht h => ?_⟩,
    Nat.mod_one _, monPro_forms hN a b, monPro_radix_sq hN a, monPro_form_one hN a⟩
  rw [monPro_eq_of_mul_radix_modEq hN h, Nat.mod_eq_of_lt ht]

end Sys2Proof.Machine
end

section
/-! PROOFS. The word-serial datapath (41_montgomery.md R114). After `i` digits of `a` the accumulator `t` stays below
`N + b`, and `t * 2^(32i)` is congruent modulo `N` to those digits times `b`: each turn adds a multiple of `N` that makes
the low 32 bits zero, and so divides by `2^32` exactly. -/

namespace Sys2Proof.Machine

theorem montgomeryN0_mul_modEq {N : Nat} (hN : N % 2 = 1) : montgomeryN0 N * N + 1 ≡ 0 [MOD 2 ^ 32] := by
  have hinv : N * modInv N (2 ^ 32) ≡ 1 [MOD 2 ^ 32] :=
    mul_modInv_modEq (by decide) (two_pow_coprime_of_odd hN 32).symm
  have hneg : montgomeryN0 N + modInv N (2 ^ 32) ≡ 0 [MOD 2 ^ 32] := by
    have hlt : modInv N (2 ^ 32) < 2 ^ 32 := modInv_lt N (by decide)
    rw [montgomeryN0, Nat.ModEq]
    omega
  calc montgomeryN0 N * N + 1
      ≡ montgomeryN0 N * N + N * modInv N (2 ^ 32) [MOD 2 ^ 32] := hinv.symm.add_left _
    _ = (montgomeryN0 N + modInv N (2 ^ 32)) * N := by ring
    _ ≡ 0 * N [MOD 2 ^ 32] := hneg.mul_right N
    _ = 0 := zero_mul N

/-- The multiplier `q` of 41_montgomery.md R114 for the sum `u`. -/
def reductionDigit (N u : Nat) : Nat := bits u 31 0 * montgomeryN0 N % 2 ^ 32

theorem reductionDigit_lt (N u : Nat) : reductionDigit N u < 2 ^ 32 := Nat.mod_lt _ (by decide)

theorem dvd_add_reductionDigit_mul {N : Nat} (hN : N % 2 = 1) (u : Nat) : 2 ^ 32 ∣ u + reductionDigit N u * N := by
  have hdigit : reductionDigit N u ≡ u * montgomeryN0 N [MOD 2 ^ 32] := by
    rw [reductionDigit, bits_eq, pow_zero, Nat.div_one]
    exact (Nat.mod_modEq _ _).trans ((Nat.mod_modEq u (2 ^ 32)).mul_right _)
  rw [← Nat.modEq_zero_iff_dvd]
  calc u + reductionDigit N u * N
      ≡ u + u * montgomeryN0 N * N [MOD 2 ^ 32] := (hdigit.mul_right N).add_left u
    _ = u * (montgomeryN0 N * N + 1) := by ring
    _ ≡ u * 0 [MOD 2 ^ 32] := (montgomeryN0_mul_modEq hN).mul_left u
    _ = 0 := mul_zero u

/-- One turn of the loop of 41_montgomery.md R114, with digit `i` of `a`. -/
def wordSerialTurn (a b N i t : Nat) : Nat :=
  (t + limb a i * b + reductionDigit N (t + limb a i * b) * N) / 2 ^ 32

theorem wordSerialLoop_succ (a b N k i t : Nat) :
    wordSerialLoop a b N (k + 1) i t = wordSerialLoop a b N k (i + 1) (wordSerialTurn a b N i t) := rfl

theorem wordSerialTurn_lt {a b N i t : Nat} (ht : t < N + b) : wordSerialTurn a b N i t < N + b := by
  have hlimb := limb_lt a i
  have hdigit := reductionDigit_lt N (t + limb a i * b)
  rw [wordSerialTurn]
  refine Nat.div_lt_of_lt_mul ?_
  generalize reductionDigit N (t + limb a i * b) = q at hdigit ⊢
  have hb : limb a i * b ≤ (2 ^ 32 - 1) * b := Nat.mul_le_mul_right b (by omega)
  have hqN : q * N ≤ (2 ^ 32 - 1) * N := Nat.mul_le_mul_right N (by omega)
  omega

theorem wordSerialTurn_mul_modEq {N : Nat} (hN : N % 2 = 1) (a b i t : Nat) :
    wordSerialTurn a b N i t * 2 ^ 32 ≡ t + limb a i * b [MOD N] := by
  rw [wordSerialTurn, Nat.div_mul_cancel (dvd_add_reductionDigit_mul hN _)]
  simp [Nat.ModEq]

/-- What the loop keeps: the accumulator after `i` digits of `a`. -/
def WordSerialInv (a b N i t : Nat) : Prop :=
  t < N + b ∧ t * 2 ^ (32 * i) ≡ a % 2 ^ (32 * i) * b [MOD N]

theorem WordSerialInv.turn {a b N i t : Nat} (hN : N % 2 = 1) (h : WordSerialInv a b N i t) :
    WordSerialInv a b N (i + 1) (wordSerialTurn a b N i t) := by
  obtain ⟨hlt, hmod⟩ := h
  refine ⟨wordSerialTurn_lt hlt, ?_⟩
  rw [Nat.mul_succ, pow_add]
  calc wordSerialTurn a b N i t * (2 ^ (32 * i) * 2 ^ 32)
      = wordSerialTurn a b N i t * 2 ^ 32 * 2 ^ (32 * i) := by ring
    _ ≡ (t + limb a i * b) * 2 ^ (32 * i) [MOD N] := (wordSerialTurn_mul_modEq hN a b i t).mul_right _
    _ = t * 2 ^ (32 * i) + 2 ^ (32 * i) * limb a i * b := by ring
    _ ≡ a % 2 ^ (32 * i) * b + 2 ^ (32 * i) * limb a i * b [MOD N] := hmod.add_right _
    _ = a % (2 ^ (32 * i) * 2 ^ 32) * b := by rw [Nat.mod_mul, limb_eq, Nat.add_mul]

theorem WordSerialInv.loop {a b N : Nat} (hN : N % 2 = 1) (k : Nat) {i t : Nat} (h : WordSerialInv a b N i t) :
    WordSerialInv a b N (i + k) (wordSerialLoop a b N k i t) := by
  induction k generalizing i t with
  | zero => exact h
  | succ k ih =>
    rw [wordSerialLoop_succ, Nat.add_comm k 1, ← Nat.add_assoc]
    exact ih (h.turn hN)

/-- Settles O50: after all digits `t * R` is congruent to `a * b`, so `t` is the product up to one subtraction of `N`. -/
theorem wordSerialComputesMonPro : Obligations.WordSerialComputesMonPro := by
  unfold Obligations.WordSerialComputesMonPro
  intro N a b hN ha hb
  have hstart : WordSerialInv a b N 0 0 := ⟨by omega, by simp [Nat.mod_one, Nat.ModEq]⟩
  obtain ⟨hlt, hmod⟩ := hstart.loop hN (limbCount N)
  rw [Nat.zero_add, Nat.mod_eq_of_lt (ha.trans (lt_two_pow_limbs N)), ← radix_eq] at hmod
  rw [monPro_eq_of_mul_radix_modEq hN hmod, monProWordSerial]
  generalize wordSerialLoop a b N (limbCount N) 0 0 = t at hlt
  split
  · rw [Nat.mod_eq_sub_mod ‹_›, Nat.mod_eq_of_lt (by omega)]
  · rw [Nat.mod_eq_of_lt (by omega)]

end Sys2Proof.Machine
end

section
/-! PROOFS. MONTMUL and MONTRR (41_montgomery.md R112, R113): the branches of their rules, and the sequence of R116, which
goes through them. -/

namespace Sys2Proof.Machine

theorem badMontgomeryModulus_iff (N : Nat) : badMontgomeryModulus N = true ↔ N = 0 ∨ N % 2 = 0 := by
  simp [badMontgomeryModulus]

theorem badMontgomeryModulus_of_odd {N : Nat} (hN : N % 2 = 1) : badMontgomeryModulus N = false := by
  rw [← Bool.not_eq_true, badMontgomeryModulus_iff]
  omega

/-- The conversion constant is the square of the radix (41_montgomery.md R113). -/
theorem montgomeryRR_eq_radix_sq (N : Nat) : montgomeryRR N = radix N ^ 2 % N := by
  rw [montgomeryRR_eq, radix_eq, ← pow_mul]
  congr 2
  omega

/-! ### The branches of the rules -/

section Branches

variable {s : State} (rd : RegId) {ra rb rm : RegId}

theorem exec_montmul_of_badModulus (ra rb : RegId) (hN : s.reg rm = 0 ∨ s.reg rm % 2 = 0) :
    exec (.montmul rd ra rb rm) s =
      runCommand s (s.raiseFault .badModulus (encode (.montmul rd ra rb rm))) :=
  congrArg (runCommand s) (if_pos ((badMontgomeryModulus_iff _).mpr hN))

theorem exec_montrr_of_badModulus (hN : s.reg rm = 0 ∨ s.reg rm % 2 = 0) :
    exec (.montrr rd rm) s = runCommand s (s.raiseFault .badModulus (encode (.montrr rd rm))) :=
  congrArg (runCommand s) (if_pos ((badMontgomeryModulus_iff _).mpr hN))

theorem exec_montrr_of_odd (hN : s.reg rm % 2 = 1) :
    exec (.montrr rd rm) s = runCommand s (s.setReg rd (montgomeryRR (s.reg rm))) := by
  rw [exec, execMontrr, badMontgomeryModulus_of_odd hN]
  rfl

theorem exec_montmul_of_operandRange (hN : s.reg rm % 2 = 1) (h : s.reg rm ≤ s.reg ra ∨ s.reg rm ≤ s.reg rb) :
    exec (.montmul rd ra rb rm) s =
      runCommand s (s.raiseFault .operandRange (encode (.montmul rd ra rb rm))) := by
  rw [exec, execMontmul, badMontgomeryModulus_of_odd hN]
  exact congrArg (runCommand s) (if_pos h)

theorem exec_montmul_of_residues (hN : s.reg rm % 2 = 1) (ha : s.reg ra < s.reg rm) (hb : s.reg rb < s.reg rm) :
    exec (.montmul rd ra rb rm) s =
      runCommand s (s.setReg rd (monPro (s.reg ra) (s.reg rb) (s.reg rm))) := by
  rw [exec, execMontmul, badMontgomeryModulus_of_odd hN]
  exact congrArg (runCommand s) (if_neg (not_or.mpr ⟨ha.not_ge, hb.not_ge⟩))

end Branches

/-- Settles O18: the branches of the rule, and the product is the residue by `monPro_mul_radix_modEq`. -/
theorem montmulWritesMontgomeryProduct : Obligations.MontmulWritesMontgomeryProduct := by
  unfold Obligations.MontmulWritesMontgomeryProduct
  intro rd ra rb rm
  have hrm : rm.val * 1024 < 16384 := by omega
  refine ⟨by simp [encode, packWord_toNat, hrm], fun s hs => ⟨fun hN ha hb => ?_, fun hN hrange => ?_, fun hN => ?_⟩⟩
  · refine ⟨monPro (s.reg ra) (s.reg rb) (s.reg rm), monPro_lt _ _ (by omega), ?_,
      .of_setReg (exec_montmul_of_residues rd hN ha hb) hs⟩
    simpa only [radix_eq, limbCount] using monPro_mul_radix_modEq hN (s.reg ra) (s.reg rb)
  · exact .of_raiseFault (exec_montmul_of_operandRange rd hN hrange) hs
  · exact .of_raiseFault (exec_montmul_of_badModulus rd ra rb hN) hs

/-- Settles O19: the branches of the rule. -/
theorem montrrWritesConversionConstant : Obligations.MontrrWritesConversionConstant := by
  unfold Obligations.MontrrWritesConversionConstant
  intro rd rm
  have hrm : rm.val * 1024 < 16384 := by omega
  refine ⟨by simp [encode, packWord_toNat, hrm], fun s hs => ⟨fun hN => ?_, fun hN => ?_⟩⟩
  · rw [← limbCount, ← montgomeryRR_eq]
    exact .of_setReg (exec_montrr_of_odd rd hN) hs
  · exact .of_raiseFault (exec_montrr_of_badModulus rd hN) hs

/-! ### The sequence of 41_montgomery.md R116 -/

theorem runCommands_cons_of_ready {i : Instr} {s t : State} (rest : List Instr) (hexec : exec i s = runCommand s t)
    (hs : s.err = false) : runCommands (i :: rest) s = runCommands rest t :=
  runCommands_cons_of_next rest (hexec.trans (runCommand_of_ready s t hs))

/-- A Montgomery product in a sequence, by the values of its registers. -/
theorem runCommands_montmul_cons {s : State} {rd ra rb rm : RegId} {a b N v : Nat} (rest : List Instr)
    (hs : s.err = false) (hrm : s.reg rm = N) (hra : s.reg ra = a) (hrb : s.reg rb = b) (hN : N % 2 = 1)
    (ha : a < N) (hb : b < N) (hv : monPro a b N = v) :
    runCommands (.montmul rd ra rb rm :: rest) s = runCommands rest (s.setReg rd v) := by
  subst hrm hra hrb hv
  exact runCommands_cons_of_ready rest (exec_montmul_of_residues rd hN ha hb) hs

/-- The state before the last product: the product of the factors stands in Montgomery form in `x[8]`, and the 1 that takes
it out of that form in `x[9]`. -/
def montgomeryFormState (s : State) : State :=
  let R := radix (s.reg 4)
  ((((s.setReg 5 (R ^ 2 % s.reg 4)).setReg 6 (s.reg 2 * R % s.reg 4)).setReg 7 (s.reg 3 * R % s.reg 4)).setReg 8
    (s.reg 2 * s.reg 3 * R % s.reg 4)).setReg 9 1

theorem montgomeryFormState_modulus (s : State) : (montgomeryFormState s).reg 4 = s.reg 4 := by
  simp [montgomeryFormState]

theorem montgomeryFormState_form (s : State) :
    (montgomeryFormState s).reg 8 = s.reg 2 * s.reg 3 * radix (s.reg 4) % s.reg 4 := by
  simp [montgomeryFormState]

theorem montgomeryFormState_one (s : State) : (montgomeryFormState s).reg 9 = 1 := by
  simp [montgomeryFormState]

theorem runCommands_montgomeryProduct {s : State} (hs : s.err = false) (hN : s.reg 4 % 2 = 1)
    (ha : s.reg 2 < s.reg 4) (hb : s.reg 3 < s.reg 4) :
    runCommands montgomeryProduct s = runCommands [.montmul 10 8 9 4] (montgomeryFormState s) := by
  have hlt (v : Nat) : v % s.reg 4 < s.reg 4 := Nat.mod_lt v (by omega)
  rw [montgomeryProduct, runCommands_cons_of_ready _ (exec_montrr_of_odd 5 hN) hs, montgomeryRR_eq_radix_sq]
  refine Eq.trans (runCommands_montmul_cons _ hs (by simp) (by simp) (by simp) hN ha (hlt _)
    (monPro_radix_sq hN _)) ?_
  refine Eq.trans (runCommands_montmul_cons _ hs (by simp) (by simp) (by simp) hN hb (hlt _)
    (monPro_radix_sq hN _)) ?_
  refine Eq.trans (runCommands_montmul_cons _ hs (by simp) (by simp) (by simp) hN (hlt _) (hlt _)
    (monPro_forms hN (s.reg 2) (s.reg 3))) ?_
  exact runCommands_cons_of_ready _ rfl hs

/-- Settles O55: the last product takes the form of `x[2] * x[3]` out of Montgomery form; at `N = 1` (log 17) its factor 1
is no residue. -/
theorem montgomerySequenceMultiplies : Obligations.MontgomerySequenceMultiplies := by
  unfold Obligations.MontgomerySequenceMultiplies
  intro s hs hN ha hb
  have hready : (montgomeryFormState s).err = false := hs
  have hmodulus := montgomeryFormState_modulus s
  have hone := montgomeryFormState_one s
  rw [runCommands_montgomeryProduct hs hN ha hb]
  obtain hlarge | hsmall := Nat.lt_or_ge 1 (s.reg 4)
  · rw [runCommands_montmul_cons [] hready hmodulus (montgomeryFormState_form s) hone hN (Nat.mod_lt _ (by omega))
      hlarge (monPro_form_one hN _)]
    exact ⟨_, rfl, fun _ => ⟨hs, State.reg_setReg_self _ _ _⟩, by omega⟩
  · have hrange : (montgomeryFormState s).reg 4 ≤ (montgomeryFormState s).reg 9 := by rwa [hmodulus, hone]
    rw [runCommands_cons_of_ready [] (exec_montmul_of_operandRange 10 (hmodulus ▸ hN) (.inr hrange)) hready]
    exact ⟨_, rfl, by omega, fun _ => ⟨rfl, rfl⟩⟩

end Sys2Proof.Machine
end

section
/-! PROOFS. Restoring division (42_modexp.md R123). A bit loop that starts at the bit length reads a value from its top
bit down: when bit `n` was the last one read, `v / 2^n` is what it has seen (`two_mul_div_two_pow_succ_add_bit`). -/

namespace Sys2Proof.Machine

theorem two_mul_div_two_pow_succ_add_bit (v n : Nat) : 2 * (v / 2 ^ (n + 1)) + bits v n n = v / 2 ^ n := by
  rw [bits_eq, Nat.add_sub_cancel_left, pow_one, pow_succ, ← Nat.div_div_eq_div_mul, Nat.div_add_mod]

theorem bits_self_eq_zero_or_one (v n : Nat) : bits v n n = 0 ∨ bits v n n = 1 := by
  rw [bits_eq, Nat.add_sub_cancel_left, pow_one]
  exact Nat.mod_two_eq_zero_or_one _

theorem div_two_pow_bitLength (v : Nat) : v / 2 ^ bitLength v = 0 := Nat.div_eq_of_lt (lt_two_pow_bitLength v)

/-- The loop keeps `q` and `r` the quotient and the remainder of the bits of `u` read so far. -/
theorem divRemLoop_spec {u N : Nat} (i : Nat) {q r : Nat} (hread : q * N + r = u / 2 ^ i) (hr : r < N) :
    (divRemLoop u N i q r).1 * N + (divRemLoop u N i q r).2 = u ∧ (divRemLoop u N i q r).2 < N := by
  induction i generalizing q r with
  | zero => simpa [divRemLoop, hr] using hread
  | succ i ih =>
    have hnext := two_mul_div_two_pow_succ_add_bit u i
    have hbit := bits_self_eq_zero_or_one u i
    rw [← hread, Nat.mul_add, ← Nat.mul_assoc] at hnext
    rw [divRemLoop]
    split
    · exact ih (by rw [Nat.succ_mul]; omega) (by omega)
    · exact ih (by omega) (by omega)

theorem divRem_spec (u : Nat) {N : Nat} (hN : 1 ≤ N) :
    (divRem u N).1 * N + (divRem u N).2 = u ∧ (divRem u N).2 < N :=
  divRemLoop_spec (bitLength u) (by simp [div_two_pow_bitLength]) hN

theorem divRem_snd (u : Nat) {N : Nat} (hN : 1 ≤ N) : (divRem u N).2 = u % N := by
  obtain ⟨hsum, hlt⟩ := divRem_spec u hN
  rw [← Nat.mod_eq_of_lt hlt, ← Nat.mul_add_mod_self_right (divRem u N).1 N, hsum]

/-- Settles O51: the loop's invariant after the last bit, and a remainder below `N` is the one remainder. -/
theorem restoringDivisionIsCorrect : Obligations.RestoringDivisionIsCorrect := by
  unfold Obligations.RestoringDivisionIsCorrect
  intro u N hN
  obtain ⟨hsum, hlt⟩ := divRem_spec u hN
  exact ⟨hsum.symm, hlt, divRem_snd u hN⟩

end Sys2Proof.Machine
end

section
/-! PROOFS. Left-to-right square-and-multiply (42_modexp.md R120, R122), said once for a loop on any representation
`form k` of the powers `b^k`: when bit `n` of the exponent was the last one read, the accumulator is the form of
`e / 2^n`. ModExp keeps residues, and so does the even-modulus loop of the engine; the odd-modulus loop keeps Montgomery
forms. -/

namespace Sys2Proof.Machine

/-- A loop that squares at each bit of `e`, and multiplies at each 1, goes from the form of `b^0` to that of `b^e`. -/
theorem squareMultiply_eq_form {e : Nat} {loop : Nat → Nat → Nat} {sq mul form : Nat → Nat}
    (hdone : ∀ acc, loop 0 acc = acc)
    (hturn : ∀ n acc, loop (n + 1) acc = loop n (if bits e n n = 1 then mul (sq acc) else sq acc))
    (hsq : ∀ k, sq (form k) = form (2 * k)) (hmul : ∀ k, mul (form k) = form (k + 1)) :
    loop (bitLength e) (form 0) = form e := by
  have hread : ∀ n, loop n (form (e / 2 ^ n)) = form e := by
    intro n
    induction n with
    | zero => rw [hdone, pow_zero, Nat.div_one]
    | succ n ih =>
      have hnext := two_mul_div_two_pow_succ_add_bit e n
      rw [hturn, hsq, hmul]
      obtain hbit | hbit := bits_self_eq_zero_or_one e n <;> rw [hbit] at hnext ⊢
      · rwa [if_neg zero_ne_one, ← Nat.add_zero (2 * _), hnext]
      · rwa [if_pos rfl, hnext]
  rw [← div_two_pow_bitLength e]
  exact hread _

/-! ### ModExp -/

theorem modExp_eq (b e N : Nat) : modExp b e N = b ^ e % N :=
  squareMultiply_eq_form (loop := modExpLoop (b % N) e N) (sq := fun acc => acc * acc % N)
    (mul := fun acc => acc * (b % N) % N) (form := fun k => b ^ k % N) (fun _ => rfl) (fun _ _ => rfl)
    (fun k => by rw [← Nat.mul_mod, ← pow_add, two_mul]) (fun k => by rw [← Nat.mul_mod, pow_succ])

section Branches

variable {s : State} (rd ra rb : RegId) {rm : RegId}

theorem exec_modexp_of_ne_zero (hN : s.reg rm ≠ 0) :
    exec (.modexp rd ra rb rm) s = runCommand s (s.setReg rd (s.reg ra ^ s.reg rb % s.reg rm)) := by
  rw [← modExp_eq]
  exact congrArg (runCommand s) (if_neg hN)

theorem exec_modexp_of_eq_zero (hN : s.reg rm = 0) :
    exec (.modexp rd ra rb rm) s = runCommand s (s.raiseFault .badModulus (encode (.modexp rd ra rb rm))) :=
  congrArg (runCommand s) (if_pos hN)

end Branches

/-- Settles O20: the branches of the rule, and what it writes is the power by `modExp_eq`. -/
theorem modexpWritesPower : Obligations.ModexpWritesPower := by
  unfold Obligations.ModexpWritesPower
  intro rd ra rb rm
  have hrm : rm.val * 1024 < 16384 := by omega
  exact ⟨by simp [encode, packWord_toNat, hrm], fun s hs =>
    ⟨fun hN => .of_setReg (exec_modexp_of_ne_zero rd ra rb hN) hs,
      fun hN => .of_raiseFault (exec_modexp_of_eq_zero rd ra rb hN) hs⟩⟩

/-! ### The engine at an even modulus -/

/-- Restoring division reduces as `ModExp` does. -/
theorem modExpDivLoop_eq_modExpLoop (b0 e : Nat) {N : Nat} (hN : 1 ≤ N) (n acc : Nat) :
    modExpDivLoop b0 e N n acc = modExpLoop b0 e N n acc := by
  induction n generalizing acc with
  | zero => rfl
  | succ n ih => rw [modExpDivLoop, modExpLoop, ih, divRem_snd _ hN, divRem_snd _ hN]

theorem modExpDivLoop_eq (b e : Nat) {N : Nat} (hN : 1 < N) :
    modExpDivLoop (b % N) e N (bitLength e) 1 = b ^ e % N := by
  rw [modExpDivLoop_eq_modExpLoop _ _ hN.le, ← modExp_eq, modExp, Nat.mod_eq_of_lt hN]

/-! ### The engine at an odd modulus -/

section OddModulus

variable {N : Nat} (hN : N % 2 = 1)
include hN

theorem monProWordSerial_forms (a b : Nat) :
    monProWordSerial (a * radix N % N) (b * radix N % N) N = a * b * radix N % N :=
  (wordSerialComputesMonPro N _ _ hN (Nat.mod_lt _ (by omega)) (Nat.mod_lt _ (by omega))).trans (monPro_forms hN a b)

theorem monProWordSerial_montgomeryRR {a : Nat} (ha : a < N) :
    monProWordSerial a (montgomeryRR N) N = a * radix N % N := by
  rw [wordSerialComputesMonPro N _ _ hN ha (montgomeryRR_lt (by omega)), montgomeryRR_eq_radix_sq,
    monPro_radix_sq hN]

theorem monProWordSerial_form_one (h1 : 1 < N) (a : Nat) : monProWordSerial (a * radix N % N) 1 N = a % N :=
  (wordSerialComputesMonPro N _ _ hN (Nat.mod_lt _ (by omega)) h1).trans (monPro_form_one hN a)

theorem modExpMontLoop_eq (b e : Nat) :
    modExpMontLoop (b * radix N % N) e N (bitLength e) (1 * radix N % N) = b ^ e * radix N % N :=
  squareMultiply_eq_form (loop := modExpMontLoop (b * radix N % N) e N) (sq := fun acc => monProWordSerial acc acc N)
    (mul := fun acc => monProWordSerial acc (b * radix N % N) N) (form := fun k => b ^ k * radix N % N)
    (fun _ => rfl) (fun _ _ => rfl) (fun k => by rw [monProWordSerial_forms hN, ← pow_add, two_mul])
    (fun k => by rw [monProWordSerial_forms hN, pow_succ])

end OddModulus

/-- Settles O52: at 1 everything is 0, and otherwise each of the two loops is square-and-multiply on its own forms
(`modExpMontLoop_eq`, `modExpDivLoop_eq`). -/
theorem modExpEngineComputesPower : Obligations.ModExpEngineComputesPower := by
  unfold Obligations.ModExpEngineComputesPower
  intro b e N hpos
  obtain rfl | h1 := hpos.eq_or_lt
  · rw [Nat.mod_one]
    rfl
  · simp only [modExpEngine, h1.ne', if_false, divRem_snd b hpos]
    split
    next hodd =>
      rw [monProWordSerial_montgomeryRR hodd (Nat.mod_lt b hpos), monProWordSerial_montgomeryRR hodd h1,
        modExpMontLoop_eq hodd, monProWordSerial_form_one hodd h1, ← Nat.pow_mod]
    next => exact modExpDivLoop_eq b e h1

end Sys2Proof.Machine
end

section
/-! PROOFS. The modular inverse (43_modinv.md R130 to R132): what the extended Euclidean engine answers, and the branches of
MODINV, which writes that answer. -/

namespace Sys2Proof.Machine

/-- Settles O53: the engine's remainders end in the gcd (`modInvEngine_eq_none_iff`), and its last coefficient, brought into
`[0, m)` (`modInvEngine_lt`), is an inverse (`mul_modInvEngine_modEq`). -/
theorem euclidEngineComputesInverse : Obligations.EuclidEngineComputesInverse := by
  unfold Obligations.EuclidEngineComputesInverse
  exact fun a m hm => ⟨modInvEngine_eq_none_iff hm, fun d hd => ⟨modInvEngine_lt hm hd, mul_modInvEngine_modEq hm hd⟩⟩

section Branches

variable {s : State} (rd : RegId) {ra rm : RegId}

theorem exec_modinv_of_eq_zero (ra : RegId) (hm : s.reg rm = 0) :
    exec (.modinv rd ra rm) s = runCommand s (s.raiseFault .badModulus (encode (.modinv rd ra rm))) :=
  congrArg (runCommand s) (if_pos hm)

theorem exec_modinv_of_gcd_ne_one (hm : s.reg rm ≠ 0) (hgcd : Nat.gcd (s.reg ra) (s.reg rm) ≠ 1) :
    exec (.modinv rd ra rm) s = runCommand s (s.raiseFault .noInverse (encode (.modinv rd ra rm))) :=
  congrArg (runCommand s) ((if_neg hm).trans (if_pos hgcd))

theorem exec_modinv_of_gcd_eq_one (hm : s.reg rm ≠ 0) (hgcd : Nat.gcd (s.reg ra) (s.reg rm) = 1) :
    exec (.modinv rd ra rm) s = runCommand s (s.setReg rd (modInv (s.reg ra) (s.reg rm))) :=
  congrArg (runCommand s) ((if_neg hm).trans (if_neg (not_not.mpr hgcd)))

end Branches

/-- Settles O21: the branches of the rule, and what it writes is the inverse by `modInv_lt` and `mul_modInv_modEq`. -/
theorem modinvWritesInverse : Obligations.ModinvWritesInverse := by
  unfold Obligations.ModinvWritesInverse
  intro rd ra rm
  have hrm : rm.val * 1024 < 16384 := by omega
  refine ⟨by simp [encode, packWord_toNat, hrm], fun s hs => ⟨fun hm hgcd => ?_, fun hm hgcd => ?_, fun hm => ?_⟩⟩
  · have hpos : 0 < s.reg rm := Nat.pos_of_ne_zero hm
    exact ⟨modInv (s.reg ra) (s.reg rm), modInv_lt _ hpos, mul_modInv_modEq hpos hgcd,
      .of_setReg (exec_modinv_of_gcd_eq_one rd hm hgcd) hs⟩
  · exact .of_raiseFault (exec_modinv_of_gcd_ne_one rd hm hgcd) hs
  · exact .of_raiseFault (exec_modinv_of_eq_zero rd ra hm) hs

end Sys2Proof.Machine
end

section
/-! PROOFS. ZEROIZE (44_system.md R141): the words of its opcode, and the state that its rule gives. -/

namespace Sys2Proof.Machine

/-- The mask of ZEROIZE's row is the whole word, so a word that selects the row is the row's match (30_encoding.md R64). -/
theorem decode_of_zeroize_opcode {w : Word} (hop : bits w.toNat 31 26 = 0x3F) (hw : w ≠ 0xFC000000) :
    decode w = .error .mustBeZero := by
  have hmask : w &&& 0xFFFFFFFF = w := BitVec.and_allOnes
  refine (decode_eq_mustBeZero_iff w).mpr ⟨⟨"ZEROIZE", 0xFC000000, 0xFFFFFFFF⟩, by decide, hop, ?_⟩
  rwa [OpcodeRow.selectedBy, hmask, beq_eq_false_iff_ne]

/-- What the reset clears and ZEROIZE does not is the fault record, and the invariant has that cleared in a ready engine
(10_state.md R27, R28). -/
theorem State.Inv.zeroAll_eq_resetEngine {s : State} (hinv : s.Inv) (hs : s.err = false) :
    s.zeroAll = s.resetEngine := by
  obtain ⟨-, -, hcause, herrcmd, -⟩ := hinv
  simp [State.zeroAll, State.resetEngine, State.reset, hs, hcause.mpr hs, herrcmd hs]

/-- Settles O22: the rule gives `zeroAll`, which is the reset state by `State.Inv.zeroAll_eq_resetEngine`; the words are
those of `decode_of_zeroize_opcode`. -/
theorem zeroizeReachesResetState : Obligations.ZeroizeReachesResetState := by
  unfold Obligations.ZeroizeReachesResetState
  refine ⟨rfl, fun w => decode_of_zeroize_opcode, fun s hs => ⟨?_, fun hinv => ?_⟩⟩
  · exact .of_ready rfl hs ⟨s.reg_zeroAll, rfl, rfl, ⟨rfl, rfl, rfl⟩, rfl, rfl, rfl⟩
  · exact .of_ready rfl hs (hinv.zeroAll_eq_resetEngine hs)

end Sys2Proof.Machine
end

section
/-! PROOFS. How a run of a sequence goes on (45_padded_rsa_sequences.md; 60_exceptions.md R175, R176): from a command
that writes its result, past the clears at its end, and to the fault of the command that fails, after which every command is
discarded. -/

namespace Sys2Proof.Machine

/-- Every command answers a next state (70_reset_and_hazards.md R195), and so does a sequence. -/
theorem exists_runCommands_eq_next (l : List Instr) (s : State) : ∃ t, runCommands l s = .next t := by
  induction l generalizing s with
  | nil => exact ⟨s, rfl⟩
  | cons i rest ih =>
    have hexec : ∃ t, exec i s = .next t := by
      obtain hs | hs := s.err.eq_false_or_eq_true
      · exact ⟨s, exec_of_err i hs⟩
      · obtain ⟨t, -, ht, -, -⟩ := exec_sameEffect i s s rfl hs hs fun _ _ => rfl
        exact ⟨t, ht⟩
    obtain ⟨t, ht⟩ := hexec
    rw [runCommands_cons_of_next rest ht]
    exact ih t

theorem runCommands_of_err (l : List Instr) {s : State} (hs : s.err = true) : runCommands l s = .next s := by
  induction l with
  | nil => rfl
  | cons i rest ih => rw [runCommands_cons_of_next rest (exec_of_err i hs), ih]

section OneCommand

variable {i : Instr} {s : State} {rd : RegId} {w : Word} (rest : List Instr)

theorem runCommands_cons_of_raiseFault {c : Cause} (hexec : exec i s = runCommand s (s.raiseFault c w))
    (hs : s.err = false) : runCommands (i :: rest) s = .next (s.raiseFault c w) :=
  (runCommands_cons_of_ready rest hexec hs).trans (runCommands_of_err rest rfl)

/-- A checked write in a sequence, where the value `v` that its registers give fits. -/
theorem runCommands_cons_of_fits {u : Nat} (v : Nat) (hexec : exec i s = runCommand s (s.writeResult rd w u))
    (hs : s.err = false) (hv : u = v) (hfits : v < 2 ^ s.cfg.K) :
    runCommands (i :: rest) s = runCommands rest (s.setReg rd v) := by
  subst hv
  exact runCommands_cons_of_ready rest (by rw [hexec, State.writeResult_of_fits s rd w u hfits]) hs

end OneCommand

/-- The state after the registers of a list are cleared, one after the other. -/
def State.clearRegs (s : State) (l : List RegId) : State := l.foldl (fun t r => t.setReg r 0) s

theorem State.reg_clearRegs (s : State) (l : List RegId) (q : RegId) :
    (s.clearRegs l).reg q = if q ∈ l then 0 else s.reg q := by
  induction l generalizing s with
  | nil => simp [clearRegs]
  | cons r l ih =>
    have hcons : s.clearRegs (r :: l) = (s.setReg r 0).clearRegs l := rfl
    rw [hcons, ih, State.reg_setReg]
    by_cases hq : q = r <;> simp [hq]

/-- Only registers are cleared. -/
theorem State.clearRegs_frame (s : State) (l : List RegId) :
    SameFlags s (s.clearRegs l) ∧ SameRecord s (s.clearRegs l) ∧ SameOutside s (s.clearRegs l) := by
  induction l generalizing s with
  | nil => exact ⟨⟨rfl, rfl⟩, ⟨rfl, rfl, rfl⟩, ⟨rfl, rfl, rfl⟩⟩
  | cons r l ih => exact ih (s.setReg r 0)

@[simp] theorem State.clearRegs_err (s : State) (l : List RegId) : (s.clearRegs l).err = s.err := by
  obtain ⟨-, ⟨herr, -, -⟩, -⟩ := s.clearRegs_frame l
  exact herr

theorem runCommands_clr (l : List RegId) {s : State} (hs : s.err = false) :
    runCommands (l.map .clr) s = .next (s.clearRegs l) := by
  induction l generalizing s with
  | nil => rfl
  | cons r l ih => exact (runCommands_cons_of_ready _ rfl hs).trans (ih hs)

/-! ### The branches of SUB and MUL -/

theorem exec_sub_of_le {s : State} (rd : RegId) {ra rb : RegId} (h : s.reg rb ≤ s.reg ra) :
    exec (.sub rd ra rb) s = runCommand s (s.setReg rd (s.reg ra - s.reg rb)) :=
  congrArg (runCommand s) (if_neg h.not_gt)

theorem exec_sub_of_lt {s : State} (rd : RegId) {ra rb : RegId} (h : s.reg ra < s.reg rb) :
    exec (.sub rd ra rb) s = runCommand s (s.raiseFault .underflow (encode (.sub rd ra rb))) :=
  congrArg (runCommand s) (if_pos h)

/-- A difference in a sequence, by the values of its registers. -/
theorem runCommands_sub_cons {s : State} {rd ra rb : RegId} {a b : Nat} (rest : List Instr) (hs : s.err = false)
    (hra : s.reg ra = a) (hrb : s.reg rb = b) (h : b ≤ a) :
    runCommands (.sub rd ra rb :: rest) s = runCommands rest (s.setReg rd (a - b)) := by
  subst hra hrb
  exact runCommands_cons_of_ready rest (exec_sub_of_le rd h) hs

/-- A product that fits in a sequence, by the values of its registers. -/
theorem runCommands_mul_cons {s : State} {rd ra rb : RegId} {a b : Nat} (rest : List Instr) (hs : s.err = false)
    (hra : s.reg ra = a) (hrb : s.reg rb = b) (h : a * b < 2 ^ s.cfg.K) :
    runCommands (.mul rd ra rb :: rest) s = runCommands rest (s.setReg rd (a * b)) := by
  subst hra hrb
  exact runCommands_cons_of_fits rest _ rfl hs rfl h

theorem exec_mul_of_overflow {s : State} (rd : RegId) {ra rb : RegId} (h : 2 ^ s.cfg.K ≤ s.reg ra * s.reg rb) :
    exec (.mul rd ra rb) s = runCommand s (s.raiseFault .overflow (encode (.mul rd ra rb))) :=
  congrArg (runCommand s) (State.writeResult_of_overflow s rd _ _ h)

end Sys2Proof.Machine
end

section
/-! PROOFS. Key generation (45_padded_rsa_sequences.md R152, R153): the two states that the sequence goes through, and
the command at which it ends for each kind of `p` and `q`. -/

namespace Sys2Proof.Machine

/-- After the modulus is written to `x[3]`: the constant 1 is in `x[15]`. -/
def keyProductState (s : State) : State := (s.setReg 15 1).setReg 3 (s.reg 1 * s.reg 2)

/-- Before the MODINV: the factors less 1, their product, and the exponent 3. -/
def keyTotientState (s : State) : State :=
  ((((keyProductState s).setReg 4 (s.reg 1 - 1)).setReg 5 (s.reg 2 - 1)).setReg 6
    ((s.reg 1 - 1) * (s.reg 2 - 1))).setReg 7 3

theorem keyTotientState_modulus (s : State) : (keyTotientState s).reg 6 = (s.reg 1 - 1) * (s.reg 2 - 1) := by
  simp [keyTotientState]

theorem keyTotientState_exponent (s : State) : (keyTotientState s).reg 7 = 3 := by
  simp [keyTotientState]

section Runs

variable {s : State} (hs : s.err = false)
include hs

theorem runCommands_keyGeneration_of_overflow (hover : 2 ^ s.cfg.K ≤ s.reg 1 * s.reg 2) :
    runCommands keyGeneration s = .next ((s.setReg 15 1).raiseFault .overflow 0x18C48000) := by
  refine (runCommands_cons_of_ready _ rfl hs).trans ?_
  exact runCommands_cons_of_raiseFault _ (exec_mul_of_overflow 3 (by simpa using hover)) hs

variable (hfits : s.reg 1 * s.reg 2 < 2 ^ s.cfg.K)
include hfits

/-- The first two commands, where the product fits. -/
theorem runCommands_keyGeneration_of_fits :
    runCommands keyGeneration s = runCommands (keyGeneration.drop 2) (keyProductState s) := by
  refine (runCommands_cons_of_ready _ rfl hs).trans ?_
  exact runCommands_mul_cons _ hs (by simp) (by simp) hfits

theorem runCommands_keyGeneration_of_p_zero (hp : s.reg 1 = 0) :
    runCommands keyGeneration s = .next ((keyProductState s).raiseFault .underflow 0x1507C000) := by
  refine (runCommands_keyGeneration_of_fits hs hfits).trans ?_
  exact runCommands_cons_of_raiseFault _ (exec_sub_of_lt 4 (by simp [keyProductState, hp])) hs

variable (hp : 1 ≤ s.reg 1)
include hp

theorem runCommands_keyGeneration_of_p_pos :
    runCommands keyGeneration s =
      runCommands (keyGeneration.drop 3) ((keyProductState s).setReg 4 (s.reg 1 - 1)) := by
  refine (runCommands_keyGeneration_of_fits hs hfits).trans ?_
  exact runCommands_sub_cons _ hs (by simp [keyProductState]) (by simp [keyProductState]) hp

theorem runCommands_keyGeneration_of_q_zero (hq : s.reg 2 = 0) :
    runCommands keyGeneration s =
      .next (((keyProductState s).setReg 4 (s.reg 1 - 1)).raiseFault .underflow 0x154BC000) := by
  refine (runCommands_keyGeneration_of_p_pos hs hfits hp).trans ?_
  exact runCommands_cons_of_raiseFault _ (exec_sub_of_lt 5 (by simp [keyProductState, hq])) hs

variable (hq : 1 ≤ s.reg 2)
include hq

/-- Up to the MODINV: the product of the factors less 1 fits where that of the factors does. -/
theorem runCommands_keyGeneration_of_q_pos :
    runCommands keyGeneration s = runCommands (keyGeneration.drop 6) (keyTotientState s) := by
  have htotient : (s.reg 1 - 1) * (s.reg 2 - 1) < 2 ^ s.cfg.K :=
    (Nat.mul_le_mul (Nat.sub_le _ 1) (Nat.sub_le _ 1)).trans_lt hfits
  refine (runCommands_keyGeneration_of_p_pos hs hfits hp).trans ?_
  refine Eq.trans (runCommands_sub_cons _ hs (by simp [keyProductState]) (by simp [keyProductState]) hq) ?_
  refine Eq.trans (runCommands_mul_cons _ hs (by simp) (by simp) htotient) ?_
  exact runCommands_cons_of_ready _ rfl hs

theorem runCommands_keyGeneration_of_badModulus (hone : s.reg 1 = 1 ∨ s.reg 2 = 1) :
    runCommands keyGeneration s = .next ((keyTotientState s).raiseFault .badModulus 0x661C1800) := by
  have hzero : (keyTotientState s).reg 6 = 0 := by
    rw [keyTotientState_modulus, mul_eq_zero]
    omega
  refine (runCommands_keyGeneration_of_q_pos hs hfits hp hq).trans ?_
  exact runCommands_cons_of_raiseFault _ (exec_modinv_of_eq_zero 8 7 hzero) hs

variable (hne : (s.reg 1 - 1) * (s.reg 2 - 1) ≠ 0)
include hne

theorem runCommands_keyGeneration_of_noInverse (hgcd : Nat.gcd 3 ((s.reg 1 - 1) * (s.reg 2 - 1)) ≠ 1) :
    runCommands keyGeneration s = .next ((keyTotientState s).raiseFault .noInverse 0x661C1800) := by
  rw [← keyTotientState_modulus] at hne
  rw [← keyTotientState_modulus, ← keyTotientState_exponent s] at hgcd
  refine (runCommands_keyGeneration_of_q_pos hs hfits hp hq).trans ?_
  exact runCommands_cons_of_raiseFault _ (exec_modinv_of_gcd_ne_one 8 hne hgcd) hs

theorem runCommands_keyGeneration_of_inverse (hgcd : Nat.gcd 3 ((s.reg 1 - 1) * (s.reg 2 - 1)) = 1) :
    runCommands keyGeneration s =
      .next (((keyTotientState s).setReg 8 (modInv 3 ((s.reg 1 - 1) * (s.reg 2 - 1)))).clearRegs [1, 2, 4, 5, 6]) := by
  have hmodulus := keyTotientState_modulus s
  have hexponent := keyTotientState_exponent s
  have hexec := exec_modinv_of_gcd_eq_one (s := keyTotientState s) (ra := 7) (rm := 6) 8 (by rwa [hmodulus])
    (by rwa [hmodulus, hexponent])
  rw [hmodulus, hexponent] at hexec
  refine (runCommands_keyGeneration_of_q_pos hs hfits hp hq).trans ?_
  exact (runCommands_cons_of_ready _ hexec hs).trans (runCommands_clr [1, 2, 4, 5, 6] hs)

end Runs

/-- Settles O56: the sequence completes, and for each kind of `p` and `q` the state it ends in is that of the lemma on that
kind. -/
theorem keyGenerationMakesKeyOrFails : Obligations.KeyGenerationMakesKeyOrFails := by
  unfold Obligations.KeyGenerationMakesKeyOrFails
  rintro s p q hs rfl rfl
  obtain ⟨t, ht⟩ := exists_runCommands_eq_next keyGeneration s
  have totient_pos (hp : 1 < s.reg 1) (hq : 1 < s.reg 2) : 0 < (s.reg 1 - 1) * (s.reg 2 - 1) :=
    Nat.mul_pos (Nat.sub_pos_of_lt hp) (Nat.sub_pos_of_lt hq)
  refine ⟨t, ht, fun hp hq hfits hgcd => ?_, fun hp hq hfits hgcd => ?_, fun hp hq hone hfits => ?_, fun hp => ?_,
    fun hp hq => ?_, fun hover => ?_⟩
  · have hpos := totient_pos hp hq
    cases ht.symm.trans (runCommands_keyGeneration_of_inverse hs hfits hp.le hq.le hpos.ne' hgcd)
    refine ⟨(State.clearRegs_err _ _).trans hs, ?_, ?_, ?_, ?_, fun r hr => ?_⟩
    · simp [State.reg_clearRegs, keyTotientState, keyProductState]
    · simp [State.reg_clearRegs, keyTotientState]
    · simpa [State.reg_clearRegs] using modInv_lt 3 hpos
    · simpa [State.reg_clearRegs] using mul_modInv_modEq hpos hgcd
    · simp only [State.reg_clearRegs, if_pos hr]
  · cases ht.symm.trans
      (runCommands_keyGeneration_of_noInverse hs hfits hp.le hq.le (totient_pos hp hq).ne' hgcd)
    refine ⟨rfl, rfl, rfl, ?_⟩
    simp [keyTotientState, keyProductState]
  · cases ht.symm.trans (runCommands_keyGeneration_of_badModulus hs hfits hp hq hone)
    refine ⟨rfl, rfl, rfl, ?_⟩
    simp [keyTotientState, keyProductState]
  · have hfits : s.reg 1 * s.reg 2 < 2 ^ s.cfg.K := by simp [hp]
    cases ht.symm.trans (runCommands_keyGeneration_of_p_zero hs hfits hp)
    refine ⟨rfl, rfl, rfl, ?_⟩
    simp [keyProductState]
  · have hfits : s.reg 1 * s.reg 2 < 2 ^ s.cfg.K := by simp [hq]
    cases ht.symm.trans (runCommands_keyGeneration_of_q_zero hs hfits hp hq)
    refine ⟨rfl, rfl, rfl, ?_⟩
    simp [keyProductState]
  · cases ht.symm.trans (runCommands_keyGeneration_of_overflow hs hover)
    refine ⟨rfl, rfl, rfl, ?_⟩
    simp

end Sys2Proof.Machine
end

section
/-! PROOFS. Padding and the strict check (45_padded_rsa_sequences.md R151, R156, R157, R159): the size of a padded
value, the state in which each of the two sequences ends, and the host that runs one after the other. -/

namespace Sys2Proof.Machine

/-! ### The padded value -/

theorem paddedValue_lt {w : FieldWidths} {r m : Nat} (hr : r < 2 ^ w.rBits) (hm : m < 2 ^ w.mBits) :
    paddedValue w r m < 2 ^ (w.rBits + 8 + w.mBits + 2) :=
  have hfields : (r + 1) * 2 ^ (8 + w.mBits) ≤ 2 ^ (w.rBits + 8 + w.mBits) := by
    rw [add_assoc, pow_add 2 w.rBits]
    exact Nat.mul_le_mul_right _ hr
  have hplain : m < 2 ^ (8 + w.mBits) := hm.trans_le (Nat.pow_le_pow_right two_pos (Nat.le_add_left _ 8))
  have hpos := Nat.two_pow_pos (w.rBits + 8 + w.mBits)
  calc paddedValue w r m
      = 2 * 2 ^ (w.rBits + 8 + w.mBits) + r * 2 ^ (8 + w.mBits) + m := rfl
    _ < 2 * 2 ^ (w.rBits + 8 + w.mBits) + (r + 1) * 2 ^ (8 + w.mBits) := by rw [add_one_mul]; omega
    _ ≤ 3 * 2 ^ (w.rBits + 8 + w.mBits) := by omega
    _ < 2 ^ (w.rBits + 8 + w.mBits + 2) := by rw [pow_add 2 _ 2]; omega

theorem le_paddedValue (w : FieldWidths) (r m : Nat) : 2 ^ (w.rBits + 8 + w.mBits + 1) ≤ paddedValue w r m := by
  rw [pow_succ']
  exact Nat.le_add_right_of_le (Nat.le_add_right _ _)

/-- The value of Horner's scheme, which is the one that the sequence follows. -/
theorem paddedValue_eq_horner (w : FieldWidths) (r m : Nat) :
    paddedValue w r m = (2 * 2 ^ w.rBits + r) * 2 ^ 8 * 2 ^ w.mBits + m := by
  rw [paddedValue, pow_add, pow_add, pow_add]
  ring

theorem bitLength_paddedValue {w : FieldWidths} {r m : Nat} (hr : r < 2 ^ w.rBits) (hm : m < 2 ^ w.mBits) :
    bitLength (paddedValue w r m) = w.rBits + 8 + w.mBits + 2 := by
  refine le_antisymm ((bitLength_le_iff _ _).mpr (paddedValue_lt hr hm)) (Nat.lt_of_not_le fun hle => ?_)
  exact absurd ((bitLength_le_iff _ _).mp hle) (le_paddedValue w r m).not_gt

/-! ### The two sequences -/

theorem State.setReg_setReg_self (s : State) (r : RegId) (u v : Nat) : (s.setReg r u).setReg r v = s.setReg r v := by
  simp [State.setReg]

/-- The values on the way are below the padded value, so that none overflows where it does not. -/
theorem runCommands_padSequence {w : FieldWidths} {s : State} (hs : s.err = false)
    (hfits : paddedValue w (s.reg 1) (s.reg 2) < 2 ^ s.cfg.K) :
    runCommands (padSequence w) s = .next (s.setReg 3 (paddedValue w (s.reg 1) (s.reg 2))) := by
  rw [paddedValue_eq_horner] at hfits ⊢
  have hshift : (2 * 2 ^ w.rBits + s.reg 1) * 2 ^ 8 < 2 ^ s.cfg.K :=
    ((Nat.le_mul_of_pos_right _ (Nat.two_pow_pos _)).trans (Nat.le_add_right _ _)).trans_lt hfits
  have hnonce : 2 * 2 ^ w.rBits + s.reg 1 < 2 ^ s.cfg.K :=
    (Nat.le_mul_of_pos_right _ (Nat.two_pow_pos _)).trans_lt hshift
  refine (runCommands_cons_of_ready _ rfl hs).trans ?_
  refine Eq.trans (runCommands_cons_of_fits _ _ rfl hs (by simp [shiftLeft_eq]) hnonce) ?_
  rw [State.setReg_setReg_self]
  refine Eq.trans (runCommands_cons_of_fits _ _ rfl hs (by simp [shiftLeft_eq]) hshift) ?_
  rw [State.setReg_setReg_self]
  refine Eq.trans (runCommands_cons_of_fits _ _ rfl hs (by simp [shiftLeft_eq]) hfits) ?_
  rw [State.setReg_setReg_self, runCommands_nil]

/-- After the strict check: the bit length of the plaintext in `x[13]`, that of its field in `x[14]`, and the two
compared. -/
def checkedState (w : FieldWidths) (s : State) : State :=
  ((s.setReg 13 (bitLength (s.reg 2))).setReg 14 w.mBits).setCompare (equalFlag w.mBits (bitLength (s.reg 2)))
    (lessFlag w.mBits (bitLength (s.reg 2)))

theorem checkedState_lt (w : FieldWidths) (s : State) :
    (checkedState w s).lt = true ↔ w.mBits < bitLength (s.reg 2) := by
  simp [checkedState, lessFlag]

theorem runCommands_strictCheck (w : FieldWidths) {s : State} (hs : s.err = false) :
    runCommands (strictCheck w) s = .next (checkedState w s) := by
  refine Eq.trans (runCommands_cons_of_ready _ rfl hs) ?_
  refine Eq.trans (runCommands_cons_of_ready _ rfl hs) ?_
  refine Eq.trans (runCommands_cons_of_ready _ rfl hs) ?_
  simp [checkedState]

/-! ### The strict host -/

section StrictHost

variable {numBits : Nat} {s t : State} (hcheck : runSized numBits strictCheck s = .next t)
include hcheck

theorem padPlan_of_lt (hlt : t.lt = true) : padPlan true numBits s = .error .plaintextTooLarge := by
  simp [padPlan, hcheck, hlt]

theorem padPlan_of_not_lt (hlt : ¬t.lt = true) :
    padPlan true numBits s = .ok (runSized numBits padSequence t) := by
  simp [padPlan, hcheck, hlt]

end StrictHost

theorem padPlan_of_no_widths (strict : Bool) {numBits : Nat} {s : State} (h : fieldWidths s.cfg numBits = none) :
    padPlan strict numBits s = .ok (.refused .modulusSize) := by
  cases strict <;> simp [padPlan, runSized_of_none _ h]

/-! ### At a size that has a meaning -/

/-- The widths that a modulus size with a meaning gives (45_padded_rsa_sequences.md R151). -/
def sizeWidths (numBits : Nat) : FieldWidths := ⟨numBits / 2, numBits / 2 - 24⟩

theorem fieldWidths_of_size {c : Config} {numBits : Nat} (heven : numBits % 2 = 0) (hmin : 48 < numBits)
    (hmax : numBits ≤ c.K) : fieldWidths c numBits = some (sizeWidths numBits) :=
  (fieldWidths_eq_some _ _ _).mpr ⟨⟨heven, hmin, hmax⟩, rfl⟩

/-- Nonce, zero byte, plaintext and the marker's two bits (45_padded_rsa_sequences.md R157). -/
theorem sizeWidths_sum {numBits : Nat} (heven : numBits % 2 = 0) (hmin : 48 < numBits) :
    (sizeWidths numBits).rBits + 8 + (sizeWidths numBits).mBits + 2 = numBits - 14 := by
  simp only [sizeWidths]
  omega

/-- The padded value in the terms of the modulus size (45_padded_rsa_sequences.md R157). -/
theorem paddedValue_of_size {numBits : Nat} (heven : numBits % 2 = 0) (hmin : 48 < numBits) (r m : Nat) :
    paddedValue (sizeWidths numBits) r m =
      2 ^ (numBits - 15) + r * 2 ^ (numBits / 2 - 16) + m := by
  have hmarker : numBits / 2 + 8 + (numBits / 2 - 24) + 1 = numBits - 15 := by omega
  have hnonce : 8 + (numBits / 2 - 24) = numBits / 2 - 16 := by omega
  simp only [paddedValue, sizeWidths, ← pow_succ', hmarker, hnonce]

theorem runSized_padSequence {numBits : Nat} {s : State} (hs : s.err = false) (heven : numBits % 2 = 0)
    (hmin : 48 < numBits) (hmax : numBits ≤ s.cfg.K) (hr : s.reg 1 < 2 ^ (numBits / 2))
    (hm : s.reg 2 < 2 ^ (numBits / 2 - 24)) :
    runSized numBits padSequence s =
      .next (s.setReg 3 (paddedValue (sizeWidths numBits) (s.reg 1) (s.reg 2))) := by
  have hbits := sizeWidths_sum heven hmin
  rw [runSized_of_some _ (fieldWidths_of_size heven hmin hmax)]
  refine runCommands_padSequence hs ((paddedValue_lt hr hm).trans_le ?_)
  exact Nat.pow_le_pow_right two_pos (by omega)

/-- Settles O57: the sequence ends with the padded value (`runSized_padSequence`), whose top bit is the marker's
(`bitLength_paddedValue`). -/
theorem padSequenceBuildsPaddedValue : Obligations.PadSequenceBuildsPaddedValue := by
  unfold Obligations.PadSequenceBuildsPaddedValue
  refine fun s numBits => ⟨fun hs heven hmin hmax hr hm => ?_, fun hsize => ?_⟩
  · refine ⟨_, runSized_padSequence hs heven hmin hmax hr hm, hs, ?_, ?_⟩
    · rw [State.reg_setReg_self, paddedValue_of_size heven hmin]
    · rw [State.reg_setReg_self]
      exact (bitLength_paddedValue hr hm).trans (sizeWidths_sum heven hmin)
  · exact runSized_of_none _ ((fieldWidths_eq_none _ _).mpr hsize)

/-- Settles O58: `LT` is the comparison of the two bit lengths (`checkedState_lt`), by which the host stops or pads the
plaintext and the nonce that the check left alone. -/
theorem strictCheckFindsOversizedPlaintext : Obligations.StrictCheckFindsOversizedPlaintext := by
  unfold Obligations.StrictCheckFindsOversizedPlaintext
  refine fun s numBits => ⟨fun hs heven hmin hmax => ?_, fun hsize => ?_⟩
  · have hcheck : runSized numBits strictCheck s = .next (checkedState (sizeWidths numBits) s) := by
      rw [runSized_of_some _ (fieldWidths_of_size heven hmin hmax), runCommands_strictCheck _ hs]
    have hlt := checkedState_lt (sizeWidths numBits) s
    have hnonce : (checkedState (sizeWidths numBits) s).reg 1 = s.reg 1 := by simp [checkedState]
    have hplain : (checkedState (sizeWidths numBits) s).reg 2 = s.reg 2 := by simp [checkedState]
    refine ⟨⟨_, hcheck, hs, hlt, hplain⟩, fun hlong => padPlan_of_lt hcheck (hlt.mpr hlong), fun hshort hr => ?_⟩
    rw [padPlan_of_not_lt hcheck (hlt.not.mpr hshort.not_gt),
      runSized_padSequence (s := checkedState _ s) hs heven hmin hmax (by rwa [hnonce])
        (by rwa [hplain, ← bitLength_le_iff])]
    exact ⟨_, rfl, hs, by rw [State.reg_setReg_self, hnonce, hplain, paddedValue_of_size heven hmin]⟩
  · have hnone := (fieldWidths_eq_none _ _).mpr hsize
    exact ⟨runSized_of_none _ hnone, fun strict => padPlan_of_no_widths strict hnone⟩

end Sys2Proof.Machine
end

section
/-! PROOFS. Encryption and decryption (45_padded_rsa_sequences.md R157 to R161): the sequences raise to a power and
clear their secrets, or end at the MODEXP; and of the functions they compute, that decryption undoes encryption, by Fermat's
little theorem modulo each of the two primes. -/

namespace Sys2Proof.Machine

/-! ### The two sequences -/

section Runs

variable {s : State} (hs : s.err = false)
include hs

theorem runCommands_encryptSequence (hN : s.reg 4 ≠ 0) :
    runCommands encryptSequence s = .next ((s.setReg 6 (s.reg 3 ^ s.reg 5 % s.reg 4)).clearRegs [1, 3]) :=
  (runCommands_cons_of_ready _ (exec_modexp_of_ne_zero 6 3 5 hN) hs).trans (runCommands_clr [1, 3] hs)

theorem runCommands_encryptSequence_of_badModulus (hN : s.reg 4 = 0) :
    runCommands encryptSequence s = .next (s.raiseFault .badModulus 0x618D5000) :=
  runCommands_cons_of_raiseFault _ (exec_modexp_of_eq_zero 6 3 5 hN) hs

theorem runCommands_decryptSequence (w : FieldWidths) (hN : s.reg 4 ≠ 0) :
    runCommands (decryptSequence w) s =
      .next (((s.setReg 3 (s.reg 1 ^ s.reg 2 % s.reg 4)).setReg 6
        (s.reg 1 ^ s.reg 2 % s.reg 4 % 2 ^ w.mBits)).clearRegs [2, 3]) := by
  refine (runCommands_cons_of_ready _ (exec_modexp_of_ne_zero 3 1 2 hN) hs).trans ?_
  refine Eq.trans (runCommands_cons_of_ready _ rfl hs) ?_
  rw [State.reg_setReg_self, maskLowBits_eq]
  exact runCommands_clr [2, 3] hs

theorem runCommands_decryptSequence_of_badModulus (w : FieldWidths) (hN : s.reg 4 = 0) :
    runCommands (decryptSequence w) s = .next (s.raiseFault .badModulus 0x60C49000) :=
  runCommands_cons_of_raiseFault _ (exec_modexp_of_eq_zero 3 1 2 hN) hs

end Runs

/-- Settles O60: the runs of the two sequences; whatever is neither written nor cleared stays (`State.reg_clearRegs`,
`State.clearRegs_frame`). -/
theorem cipherSequencesComputeAndClear : Obligations.CipherSequencesComputeAndClear := by
  unfold Obligations.CipherSequencesComputeAndClear
  refine fun s hs => ⟨fun hN => ?_, fun hN => ?_, fun numBits => ⟨fun heven hmin hmax => ?_, fun hsize => ?_⟩⟩
  · refine ⟨_, runCommands_encryptSequence hs hN, (State.clearRegs_err _ _).trans hs, ?_, ?_, ?_,
      fun r h1 h3 h6 => ?_, State.clearRegs_frame _ _⟩
    · simp [State.reg_clearRegs]
    · simp [State.reg_clearRegs]
    · simp [State.reg_clearRegs]
    · simp [State.reg_clearRegs, h1, h3, h6]
  · exact ⟨_, runCommands_encryptSequence_of_badModulus hs hN, faults_raiseFault _ _ _⟩
  · have hrun := runSized_of_some decryptSequence (fieldWidths_of_size heven hmin hmax)
    refine ⟨fun hN => ?_, fun hN => ?_⟩
    · refine ⟨_, hrun.trans (runCommands_decryptSequence hs _ hN), (State.clearRegs_err _ _).trans hs, ?_, ?_, ?_,
        fun r h2 h3 h6 => ?_, State.clearRegs_frame _ _⟩
      · simp [State.reg_clearRegs, sizeWidths]
      · simp [State.reg_clearRegs]
      · simp [State.reg_clearRegs]
      · simp [State.reg_clearRegs, h2, h3, h6]
    · exact ⟨_, hrun.trans (runCommands_decryptSequence_of_badModulus hs _ hN), faults_raiseFault _ _ _⟩
  · exact runSized_of_none _ ((fieldWidths_eq_none _ _).mpr hsize)

/-! ### The round trip of the functions -/

theorem maskLowBits_paddedValue (w : FieldWidths) (r m : Nat) :
    maskLowBits (paddedValue w r m) w.mBits = m % 2 ^ w.mBits := by
  rw [maskLowBits_eq, paddedValue_eq_horner, Nat.mul_add_mod_self_right]

/-- Fermat's little theorem, for every base and every exponent that is 1 modulo a multiple of `p - 1`. -/
theorem pow_modEq_self_of_prime {p k e : Nat} (hp : p.Prime) (hk : p - 1 ∣ k) (hpos : 0 < e) (he : e ≡ 1 [MOD k])
    (x : Nat) : x ^ e ≡ x [MOD p] := by
  have hdvd : p - 1 ∣ e - 1 := hk.trans ((Nat.modEq_iff_dvd' hpos).mp he.symm)
  have hpow := Int.ModEq.pow_eq_pow hp hdvd hpos one_pos x
  rw [pow_one] at hpow
  exact_mod_cast hpow

/-- The exponent 0 is 1 only modulo 1, which `(p - 1) * (q - 1)` is for `p = q = 2` alone. -/
theorem exponent_pos {p q e : Nat} (hp : p.Prime) (hq : q.Prime) (hpq : p ≠ q)
    (he : e ≡ 1 [MOD (p - 1) * (q - 1)]) : 0 < e := by
  have hp2 := hp.two_le
  have hq2 := hq.two_le
  refine Nat.pos_of_ne_zero fun hzero => hpq ?_
  have hone : (p - 1) * (q - 1) = 1 := Nat.dvd_one.mp ((Nat.modEq_zero_iff_dvd).mp (hzero ▸ he).symm)
  obtain ⟨hp1, hq1⟩ := mul_eq_one.mp hone
  omega

theorem pow_mod_mul_eq_self {p q e x : Nat} (hp : p.Prime) (hq : q.Prime) (hpq : p ≠ q)
    (he : e ≡ 1 [MOD (p - 1) * (q - 1)]) (hx : x < p * q) : x ^ e % (p * q) = x := by
  have hpos := exponent_pos hp hq hpq he
  have hmodp : x ^ e ≡ x [MOD p] := pow_modEq_self_of_prime hp (Nat.dvd_mul_right _ _) hpos he x
  have hmodq : x ^ e ≡ x [MOD q] := pow_modEq_self_of_prime hq (Nat.dvd_mul_left _ _) hpos he x
  have hmod : x ^ e ≡ x [MOD p * q] :=
    (Nat.modEq_and_modEq_iff_modEq_mul ((Nat.coprime_primes hp hq).mpr hpq)).mp ⟨hmodp, hmodq⟩
  exact Eq.trans hmod (Nat.mod_eq_of_lt hx)

/-- Settles O59: decryption gives back what was encrypted (`pow_mod_mul_eq_self`), and the mask its lowest field; the bound
is that of `paddedValue_lt`. -/
theorem decryptionUndoesEncryption : Obligations.DecryptionUndoesEncryption := by
  unfold Obligations.DecryptionUndoesEncryption
  intro c numBits p q d r m w hw hp hq hpq hd
  obtain ⟨⟨heven, hmin, -⟩, rfl⟩ := (fieldWidths_eq_some _ _ _).mp hw
  refine ⟨fun hlt => ?_, fun hr hm hN => ?_⟩
  · rw [modExp_eq, modExp_eq, ← Nat.pow_mod, ← pow_mul, pow_mod_mul_eq_self hp hq hpq hd hlt]
    exact maskLowBits_paddedValue _ r m
  · calc paddedValue (sizeWidths numBits) r m
        < 2 ^ _ := paddedValue_lt hr hm
      _ = 2 ^ (numBits - 14) := congrArg (2 ^ ·) (sizeWidths_sum heven hmin)
      _ ≤ 2 ^ (numBits - 2) := Nat.pow_le_pow_right two_pos (by omega)
      _ ≤ p * q := hN

end Sys2Proof.Machine
end

section
/-! PROOFS. Faults (60_exceptions.md R171 to R176): what a command that leaves a fault on record has done, and the step that
serves a write of CMD whose word is no command or is discarded. -/

namespace Sys2Proof.Machine

/-! ### The fault entry of a command -/

/-- The causes listed for the commands are causes of faults (60_exceptions.md R171). -/
theorem mayRaise_none (i : Instr) : mayRaise i .none = false := by
  cases i <;> rfl

/-- Of the changes that a command can make, only the fault entry sets `ERR`. -/
theorem exec_eq_raiseFault {i : Instr} {s t : State} (hs : s.err = false) (h : exec i s = .next t)
    (ht : t.err = true) : ∃ c, mayRaise i c = true ∧ t = s.raiseFault c (encode i) := by
  obtain ⟨herr, -⟩ | ⟨-, heffect⟩ := exec_cases h
  · simp [hs] at herr
  · cases heffect with
    | fault c hc => exact ⟨c, hc, rfl⟩
    | write | compare | clear => simp [hs] at ht

/-- Settles O27: the state is that of the fault entry (`exec_eq_raiseFault`), with a cause of the command's own, which is
never the empty one. -/
theorem faultEntryIsPrecise : Obligations.FaultEntryIsPrecise := by
  unfold Obligations.FaultEntryIsPrecise
  intro i s t hs h ht
  obtain ⟨c, hc, rfl⟩ := exec_eq_raiseFault hs h ht
  refine ⟨fun hnone => ?_, faults_raiseFault s c (encode i)⟩
  rw [State.raiseFault_cause] at hnone
  simp [hnone, mayRaise_none] at hc

/-- Settles O28: the cause is the one of the fault entry (`exec_eq_raiseFault`). -/
theorem commandsRaiseOnlyTheirCauses : Obligations.CommandsRaiseOnlyTheirCauses := by
  unfold Obligations.CommandsRaiseOnlyTheirCauses
  intro i s t hs h ht
  obtain ⟨c, hc, rfl⟩ := exec_eq_raiseFault hs h ht
  exact hc

/-! ### The write of CMD that runs no command -/

theorem commandWrite_of_err (w : Word) {s : State} (h : s.err = true) : commandWrite w s = .next s := by
  rw [commandWrite, if_pos h]

theorem commandWrite_of_illegal {w : Word} {e : IllegalWord} {s : State} (hs : s.err = false)
    (hw : decode w = .error e) : commandWrite w s = .next (s.raiseFault .illegalCommand w) := by
  simp [commandWrite, hs, hw]

/-- Settles O25: CMD accepts the write, and its effect is the fault entry of IllegalCommand. -/
theorem illegalWordRecordsFault : Obligations.IllegalWordRecordsFault := by
  unfold Obligations.IllegalWordRecordsFault
  intro s rest w e hp hs hw
  exact ⟨(s.take rest).raiseFault .illegalCommand w,
    step_of_write hp (windowTarget_cmd _) (commandWrite_of_illegal hs hw), faults_raiseFault _ _ _⟩

/-- Settles O26: the discard stands in the write of CMD (`commandWrite_of_err`) and in every meaning (`exec_of_err`). -/
theorem commandsDiscardedWhileFault : Obligations.CommandsDiscardedWhileFault := by
  unfold Obligations.CommandsDiscardedWhileFault
  exact fun s hs => ⟨fun _ w hp => step_of_write hp (windowTarget_cmd _) (commandWrite_of_err w hs),
    fun i => exec_of_err i hs⟩

end Sys2Proof.Machine
end

section
/-! PROOFS. Every command answers a next state, and what the reset event leaves (70_reset_and_hazards.md R190, R191,
R195). -/

namespace Sys2Proof.Machine

theorem exists_runCommand_eq_next (s t : State) : ∃ u, runCommand s t = .next u := by
  cases hs : s.err with
  | true => exact ⟨s, runCommand_of_err s t hs⟩
  | false => exact ⟨t, runCommand_of_ready s t hs⟩

/-- Settles O24: each meaning is a `runCommand` of the state that its rule gives, which is the old state while a fault is on
record and that state otherwise. -/
theorem everyCommandTerminates : Obligations.EveryCommandTerminates := by
  unfold Obligations.EveryCommandTerminates
  intro i s
  cases i <;> exact exists_runCommand_eq_next s _

theorem step_of_reset {s : State} {rest : List Input} (h : s.pending = .reset :: rest) :
    step s = .next (s.take rest).resetEngine := by
  rw [step_of_pending s _ rest h, serve]

/-- PARAM reads the width, which the reset event keeps (10_state.md R29; log 10). -/
@[simp] theorem State.paramWord_resetEngine (s : State) : s.resetEngine.paramWord = s.paramWord := rfl

@[simp] theorem State.paramWord_take (s : State) (rest : List Input) : (s.take rest).paramWord = s.paramWord := rfl

/-- Settles O38: the step is the reset event on the inputs that remain (`step_of_reset`), read field by field. -/
theorem resetEventYieldsResetState : Obligations.ResetEventYieldsResetState := by
  unfold Obligations.ResetEventYieldsResetState
  intro s rest hp
  refine ⟨(s.take rest).resetEngine, step_of_reset hp, State.reg_resetEngine _, ?_⟩
  simp

end Sys2Proof.Machine
end
